-- ==== Sys2Proof/Word.lean ====
section
/-! DEFINITION. Word types: the machine's word, byte, and the two kinds of register number
(spec/00_scope.md R3 and R7, spec/10_state.md R20, R27, R32). -/

namespace Sys2Proof

/-- A register, an address, the pc, an instruction word: 32 bits (R3). -/
abbrev Word := BitVec 32

/-- The unit of addressing (R32). -/
abbrev Byte := BitVec 8

/-- The number of a general register, as the fields `rd`, `rs1`, `rs2` hold it (R20). -/
abbrev RegNum := BitVec 5

/-- The address of a control and status register (R27). -/
abbrev CsrAddr := BitVec 12

end Sys2Proof
end

