-- ==== Sys2Proof/Machine/Flags.lean ====
section
/-! DEFINITION. Conditions. The machine has no flags (spec/10_state.md R26): a comparison decides a branch directly, or
becomes the number 1 or 0 in `rd`. -/

namespace Sys2Proof.Machine

/-- `signed(a) < signed(b)` on two's-complement numbers (spec/00_scope.md R7). -/
def lessSigned (a b : Word) : Bool := a.toInt < b.toInt

/-- `a < b` on unsigned numbers. -/
def lessUnsigned (a b : Word) : Bool := a.toNat < b.toNat

/-- The 32-bit number 1 or 0 (spec/45_immediate_arithmetic.md R152). -/
def flagWord (c : Bool) : Word := if c then 1#32 else 0#32

end Sys2Proof.Machine
end

