-- ==== Sys2Proof/Machine/Bytes.lean ====
section
/-! DEFINITION. Byte order: little-endian for data and for fetch (spec/20_memory.md R43). -/

namespace Sys2Proof.Machine

/-- The value whose byte at the lowest address comes first in the list: bits 7..0 from the first byte, bits 15..8 from
the second, and so on (R44). -/
def wordOfBytes : List Byte → Word
  | [] => 0#32
  | b :: bs => wordOfBytes bs <<< 8 ||| b.setWidth 32

/-- The low `n` bytes of a value, least significant first (R45). -/
def bytesOfWord : Nat → Word → List Byte
  | 0, _ => []
  | n + 1, v => v.setWidth 8 :: bytesOfWord n (v >>> 8)

end Sys2Proof.Machine
end

