-- ==== Sys2Proof/Config.lean ====
section
/-! DEFINITION. The parameters of the hardware (spec/00_scope.md R6). Fixed and decided ones are constants. The open
ones MEM_MAP and CSR_SET are the fields of `Platform`, which the state carries, so that a statement about every state
is a statement about every choice of them; RESET_PC is an argument of the launch state; ILEN_SP is opaque. -/

namespace Sys2Proof.Config

/-- A run of consecutive addresses: `base`, `base + 1`, …, `base + size - 1`. -/
structure Span where
  base : Nat
  size : Nat
  deriving DecidableEq, Repr

/-- The open parameters a step depends on (R259): the set MEM_MAP of byte addresses that hold memory
(spec/20_memory.md R41) and the set CSR_SET of implemented CSR addresses (spec/10_state.md R28), each as a union of
address runs. -/
structure Platform where
  memMap : List Span
  csrSet : List Span
  deriving DecidableEq, Repr

/-- How far `pc` moves past a decodable instruction: ILEN = 32 bits (R6, R25, spec/30_encoding.md R70). -/
def ilen : Word := 4#32

/-- ILEN_SP, the length in bytes of SWSP and LWSP: open and unknown, because their encodings are lost (R6,
spec/49_stack_pointer.md R216). Nothing in Lean can evaluate it. Log entry 7. -/
opaque ilenSp : Word

/-- SP_INDEX: the general register that SWSP and LWSP call SP (R6, spec/10_state.md R29). -/
def spIndex : RegNum := 2#5

/-- IALIGN: every instruction address is a multiple of this many bytes (R6, spec/20_memory.md R48). -/
def ialign : Nat := 4

/-- RESET_PC of `State.reset`. DESIGN CHOICE, unsafe: the spec leaves it open (spec/70_reset_and_hazards.md R251).
Log entry 2. -/
def resetPc : Word := 0#32

/-- What x[1] to x[31] hold in `State.reset`. DESIGN CHOICE, unsafe: the spec gives none (spec/10_state.md R33).
Log entry 1. -/
def resetReg : Word := 0#32

/-- What a CSR cell that no entry lists reads as. DESIGN CHOICE, unsafe: the spec gives no reset value (R33).
Log entry 3. -/
def unlistedCsr : Word := 0#32

/-- What a memory byte that no entry lists reads as: no value, so that reading it faults with UnwrittenRead
(spec/10_state.md R33, spec/60_exceptions.md R222). DESIGN CHOICE between the spec's two treatments, safe.
Log entry 4. -/
def unlistedByte : Option Byte := none

/-- MEM_MAP and CSR_SET of `State.reset`: every address. DESIGN CHOICE, unsafe: both are open (R28, R41).
Log entries 5 and 6. -/
def resetPlatform : Platform where
  memMap := [⟨0, 4294967296⟩]
  csrSet := [⟨0, 4096⟩]

end Sys2Proof.Config
end

