-- ==== Sys2Proof/Syntax.lean ====
section
/-! DEFINITION. The instruction set: one constructor per row of spec/opcode_table.json, in the table's order
(spec/00_scope.md R2). Operands are the fields of the encoding, assembled but not yet extended: `imm` of the I and S
formats has 12 bits (spec/30_encoding.md R79, R81), a branch offset 13 bits (R80), JAL's offset 21 bits (R82), the U
immediate its upper 20 bits (R83), a shift amount 5 bits (R84), `csr` 12 bits and `zimm` 5 bits (R85). -/

namespace Sys2Proof

inductive Instr where
  | auipc (rd : RegNum) (imm : BitVec 20)
  | lui (rd : RegNum) (imm : BitVec 20)
  | jal (rd : RegNum) (off : BitVec 21)
  | jalr (rd rs1 : RegNum) (imm : BitVec 12)
  | beq (rs1 rs2 : RegNum) (off : BitVec 13)
  | bne (rs1 rs2 : RegNum) (off : BitVec 13)
  | blt (rs1 rs2 : RegNum) (off : BitVec 13)
  | bge (rs1 rs2 : RegNum) (off : BitVec 13)
  | bltu (rs1 rs2 : RegNum) (off : BitVec 13)
  | bgeu (rs1 rs2 : RegNum) (off : BitVec 13)
  | lb (rd rs1 : RegNum) (imm : BitVec 12)
  | lh (rd rs1 : RegNum) (imm : BitVec 12)
  | lw (rd rs1 : RegNum) (imm : BitVec 12)
  | lbu (rd rs1 : RegNum) (imm : BitVec 12)
  | lhu (rd rs1 : RegNum) (imm : BitVec 12)
  | sb (rs1 rs2 : RegNum) (imm : BitVec 12)
  | sh (rs1 rs2 : RegNum) (imm : BitVec 12)
  | sw (rs1 rs2 : RegNum) (imm : BitVec 12)
  | addi (rd rs1 : RegNum) (imm : BitVec 12)
  | slti (rd rs1 : RegNum) (imm : BitVec 12)
  | sltiu (rd rs1 : RegNum) (imm : BitVec 12)
  | xori (rd rs1 : RegNum) (imm : BitVec 12)
  | ori (rd rs1 : RegNum) (imm : BitVec 12)
  | andi (rd rs1 : RegNum) (imm : BitVec 12)
  | slli (rd rs1 : RegNum) (shamt : BitVec 5)
  | srli (rd rs1 : RegNum) (shamt : BitVec 5)
  | srai (rd rs1 : RegNum) (shamt : BitVec 5)
  | add (rd rs1 rs2 : RegNum)
  | sub (rd rs1 rs2 : RegNum)
  | sll (rd rs1 rs2 : RegNum)
  | slt (rd rs1 rs2 : RegNum)
  | sltu (rd rs1 rs2 : RegNum)
  | xor (rd rs1 rs2 : RegNum)
  | srl (rd rs1 rs2 : RegNum)
  | sra (rd rs1 rs2 : RegNum)
  | or (rd rs1 rs2 : RegNum)
  | and (rd rs1 rs2 : RegNum)
  | csrrw (rd : RegNum) (csr : CsrAddr) (rs1 : RegNum)
  | csrrs (rd : RegNum) (csr : CsrAddr) (rs1 : RegNum)
  | csrrc (rd : RegNum) (csr : CsrAddr) (rs1 : RegNum)
  | csrrwi (rd : RegNum) (csr : CsrAddr) (zimm : BitVec 5)
  | csrrsi (rd : RegNum) (csr : CsrAddr) (zimm : BitVec 5)
  | csrrci (rd : RegNum) (csr : CsrAddr) (zimm : BitVec 5)
  | mul (rd rs1 rs2 : RegNum)
  /-- SWSP: `uimm` is the zero-extended immediate, whose width is lost; `rsData` names the data register, whose
  field is lost (spec/49_stack_pointer.md R216). Log entry 8. -/
  | swsp (rsData : RegNum) (uimm : Word)
  /-- LWSP: `uimm` as for SWSP (spec/49_stack_pointer.md R217). Log entry 8. -/
  | lwsp (rd : RegNum) (uimm : Word)
  deriving DecidableEq, Repr

end Sys2Proof
end

