-- ==== Sys2Proof/Machine/State.lean ====
section
/-! DEFINITION. The state (spec/10_state.md), the outcomes of a step (spec/00_scope.md R9, spec/60_exceptions.md R222
and R223), the launch state (spec/70_reset_and_hazards.md R253) and `State.reset`. -/

namespace Sys2Proof.Machine

/-- Memory: (address, byte) pairs, addresses strictly rising; an address no pair lists holds no value (R32, R33). -/
abbrev Memory := List Host.Cell

/-- The CSR file: (address, value) pairs, addresses strictly rising, no pair equal to what an unlisted address reads
as (R27, R28). -/
abbrev CsrFile := List (Nat × Word)

/-- A set of byte addresses, strictly rising. -/
abbrev AddrSet := List Nat

/-- The whole machine. There is no flag, mode, trap, reservation or accumulator register in it (R26, R30, R31,
spec/60_exceptions.md R224, R230, R236). -/
structure State where
  /-- The open parameters MEM_MAP and CSR_SET, which no step changes (spec/00_scope.md R6). -/
  platform : Config.Platform
  /-- x[0] to x[31] (R20). Slot 0 is never read: x[0] is 0 (R21). -/
  regs : Vector Word 32
  /-- The address of the instruction being executed (R25). -/
  pc : Word
  /-- The CSR cells (R28). -/
  csrs : CsrFile
  /-- The bytes of memory that hold a value (R32). -/
  mem : Memory
  /-- The bytes written by stores of this run (spec/20_memory.md R55). -/
  stored : AddrSet
  deriving DecidableEq, Repr

/-- The faults of spec/60_exceptions.md R222. A fault ends the run, writes no state (R221), and is safe: the model
claims nothing about what the hardware does next (R227). -/
inductive Fault where
  /-- Fetch: the pc is not a multiple of 4. Safe. -/
  | misalignedFetch (pc : Word)
  /-- Fetch: one of the four bytes at the pc is outside MEM_MAP. Safe. -/
  | fetchAccessFault (pc : Word)
  /-- Decode: a shift by a constant with `IR[25] = 1` (spec/30_encoding.md R91). Safe. -/
  | illegalInstruction (ir : Word)
  /-- JAL, JALR and taken branches: the target is not a multiple of 4 (spec/20_memory.md R48). Safe. -/
  | misalignedTarget (target : Word)
  /-- LH, LHU, LW, LWSP: the address is not a multiple of the access size (R47). Safe. -/
  | misalignedLoad (addr : Word)
  /-- Loads: a byte of the access is outside MEM_MAP (R41). Safe. -/
  | loadAccessFault (addr : Word)
  /-- SH, SW, SWSP: the address is not a multiple of the access size (R47). Safe. -/
  | misalignedStore (addr : Word)
  /-- Stores: a byte of the access is outside MEM_MAP (R41). Safe. -/
  | storeAccessFault (addr : Word)
  /-- CSR instructions: the address is not in CSR_SET (spec/10_state.md R28). Safe. -/
  | csrNotImplemented (csr : CsrAddr)
  /-- Fetch and loads: the byte at this address holds no value (R33). Registers and CSR cells hold a value from reset on
  and never raise it (DESIGN CHOICE, log entries 1 and 3). Safe. -/
  | unwrittenRead (addr : Word)
  deriving DecidableEq, Repr

/-- The refusals of spec/60_exceptions.md R223. A refusal ends the run, writes no state, and is safe: it says nothing
about the hardware. -/
inductive Refusal where
  /-- `exec`, for an instruction without a meaning in this model; no instruction is left so. Safe. -/
  | notModelled (mnemonic : String)
  /-- Decode: the word matches no row of the opcode map (spec/30_encoding.md R92). Safe. -/
  | unknownEncoding (ir : Word)
  /-- Fetch: one of the four bytes at the pc was written by a store of this run (spec/20_memory.md R55). Safe. -/
  | selfModifyingCode (pc : Word)
  deriving DecidableEq, Repr

/-- One of the three outcomes of a step (spec/00_scope.md R9). -/
abbrev Result := Host.Outcome State Fault Refusal

/-! ## The update of each field -/

def State.setPlatform (s : State) (v : Config.Platform) : State := { s with platform := v }

def State.setRegs (s : State) (v : Vector Word 32) : State := { s with regs := v }

def State.setPc (s : State) (v : Word) : State := { s with pc := v }

def State.setCsrs (s : State) (v : CsrFile) : State := { s with csrs := v }

def State.setMem (s : State) (v : Memory) : State := { s with mem := v }

def State.setStored (s : State) (v : AddrSet) : State := { s with stored := v }

/-! ## Launch and reset -/

/-- The launch state of a run (spec/70_reset_and_hazards.md R253): `pc` is RESET_PC, x[0] is 0 whatever slot 0 is given,
x[1] to x[31] hold `regs`, the CSR cells and the memory are those of the configuration and the launch image, and no
store has written a byte. -/
def State.launch (platform : Config.Platform) (resetPc : Word) (regs : Vector Word 32) (csrs : CsrFile)
    (image : Memory) : State where
  platform := platform
  regs := regs.set 0 0#32
  pc := resetPc
  csrs := csrs
  mem := image
  stored := []

/-- The machine right after reset: the launch state with the parameters and the register values the assumption log
names (entries 1 to 6), and no launch image. -/
def State.reset : State :=
  State.launch Config.resetPlatform Config.resetPc (Vector.replicate 32 Config.resetReg) [] []

end Sys2Proof.Machine
end

