-- ==== Sys2Proof/Machine/Operands.lean ====
section
/-! DEFINITION. Operand forms: general registers (spec/10_state.md R20 to R24), immediates extended to 32 bits
(spec/30_encoding.md R79 to R85), effective addresses and targets (spec/20_memory.md R49). -/

namespace Sys2Proof.Machine

/-- `x[r]`: x[0] reads as 0 always (R21). -/
def readReg (s : State) (r : RegNum) : Word :=
  if r = 0#5 then 0#32 else s.regs[r.toNat]

/-- `x[r] <- v`: a write to x[0] is dropped (R21). -/
def writeReg (s : State) (r : RegNum) (v : Word) : State :=
  if r = 0#5 then s else s.setRegs (s.regs.set r.toNat v)

/-- `imm_I` and `imm_S`: 12 bits, sign-extended (R79, R81). -/
def signed12 (imm : BitVec 12) : Word := imm.signExtend 32

/-- `imm_B`: 13 bits, sign-extended (R80). -/
def signed13 (off : BitVec 13) : Word := off.signExtend 32

/-- `imm_J`: 21 bits, sign-extended (R82). -/
def signed21 (off : BitVec 21) : Word := off.signExtend 32

/-- `imm_U`: the 20-bit field shifted left by 12 and filled with zeros (R83). -/
def upper20 (imm : BitVec 20) : Word := imm ++ 0#12

/-- `zext_5(zimm)` (R85). -/
def unsigned5 (zimm : BitVec 5) : Word := zimm.setWidth 32

/-- The shift count of a register shift: the low five bits of `x[rs2]` (spec/46_register_arithmetic.md R173). -/
def shiftCount (v : Word) : Nat := (v.extractLsb' 0 5).toNat

/-- The effective address `x[rs1] + sext_12(imm)` modulo 2^32 (R49, spec/43_loads.md R130, spec/44_stores.md R140). -/
def baseOffset (s : State) (rs1 : RegNum) (imm : BitVec 12) : Word := readReg s rs1 + signed12 imm

/-- The effective address `x[SP_INDEX] + zext(uimm)` of SWSP and LWSP (spec/49_stack_pointer.md R216, R217). -/
def spOffset (s : State) (uimm : Word) : Word := readReg s Config.spIndex + uimm

/-- The byte extensions of the loads: the low byte of the value read, sign- or zero-extended (spec/20_memory.md R50). -/
def signExtendByte (v : Word) : Word := (v.extractLsb' 0 8).signExtend 32

def zeroExtendByte (v : Word) : Word := (v.extractLsb' 0 8).setWidth 32

/-- The halfword extensions of the loads (spec/20_memory.md R50). -/
def signExtendHalf (v : Word) : Word := (v.extractLsb' 0 16).signExtend 32

def zeroExtendHalf (v : Word) : Word := (v.extractLsb' 0 16).setWidth 32

end Sys2Proof.Machine
end

