-- ==== Sys2Proof/Machine/Ops.lean ====
section
/-! DEFINITION. The shared operations: raising a fault (spec/60_exceptions.md R220, R221, R224), ending an instruction,
jumping, memory (spec/20_memory.md R41 to R49) and the CSR file (spec/10_state.md R27, R28, spec/47_csr.md R190). -/

namespace Sys2Proof.Machine

/-! ## Faults and refusals -/

/-- `raise <Fault>(info)`: all that taking an exception is on this machine. The run ends with the named fault; nothing is
saved, no mode changes, control goes to no handler, and there is no return (R220, R221, R224). -/
def raise (f : Fault) : Result := .fault f

/-- `refuse(reason)`: the run ends and nothing may be concluded (spec/00_scope.md R9, R223). -/
def refuse (r : Refusal) : Result := .refused r

/-! ## Ending an instruction -/

/-- `pc <- pc + len` modulo 2^32 (spec/10_state.md R25, spec/20_memory.md R49). -/
def advanceBy (len : Word) (s : State) : State := s.setPc (s.pc + len)

/-- `x[rd] <- v ; pc <- pc + 4`. -/
def finishRd (s : State) (rd : RegNum) (v : Word) : Result :=
  .next (advanceBy Config.ilen (writeReg s rd v))

/-- `if t mod 4 != 0 then raise MisalignedTarget(t) ; pc <- t` (spec/20_memory.md R48). The state given holds what the
instruction writes besides the pc. -/
def jumpTo (s : State) (t : Word) : Result :=
  if t.toNat % Config.ialign ≠ 0 then raise (.misalignedTarget t) else .next (s.setPc t)

/-- JAL and JALR: check the target, write the link `pc + 4`, jump (spec/41_jumps.md R110, R111). -/
def linkAndJump (s : State) (rd : RegNum) (t : Word) : Result :=
  jumpTo (writeReg s rd (s.pc + Config.ilen)) t

/-- The six branches: taken, to `pc + imm_B`; else on to `pc + 4` (spec/42_branches.md R120). -/
def branchIf (cond : Bool) (s : State) (off : BitVec 13) : Result :=
  if cond then jumpTo s (s.pc + signed13 off) else .next (advanceBy Config.ilen s)

/-! ## Sparse maps and sets, in canonical form -/

/-- The value listed for a key. -/
def sparseLookup {α : Type} : List (Nat × α) → Nat → Option α
  | [], _ => none
  | (k, v) :: m, a => if k = a then some v else sparseLookup m a

/-- List a value for a key, keeping the keys strictly rising. -/
def sparseInsert {α : Type} : List (Nat × α) → Nat → α → List (Nat × α)
  | [], a, x => [(a, x)]
  | (k, v) :: m, a, x =>
    if a < k then (a, x) :: (k, v) :: m
    else if a = k then (a, x) :: m
    else (k, v) :: sparseInsert m a x

/-- List no value for a key. -/
def sparseErase {α : Type} (m : List (Nat × α)) (a : Nat) : List (Nat × α) :=
  m.filter (fun e => e.1 ≠ a)

/-- Add an address to a set, keeping it strictly rising. -/
def addrInsert : AddrSet → Nat → AddrSet
  | [], a => [a]
  | k :: m, a => if a < k then a :: k :: m else if a = k then k :: m else k :: addrInsert m a

/-- The keys rise strictly. -/
def rising : List Nat → Bool
  | [] => true
  | a :: m => m.all (fun b => a < b) && rising m

/-- The canonical form of memory: strictly rising addresses below 2^32. No entry can equal what an unlisted address reads
as, which is no value. -/
def Memory.wf (m : Memory) : Bool :=
  rising (m.map Prod.fst) && m.all (fun e => e.1 < 2 ^ 32)

/-- The canonical form of the CSR file: strictly rising 12-bit addresses, no entry equal to what an unlisted address
reads as. -/
def CsrFile.wf (m : CsrFile) : Bool :=
  rising (m.map Prod.fst) && m.all (fun e => e.1 < 2 ^ 12 && e.2 ≠ Config.unlistedCsr)

/-! ## Memory -/

/-- The address lies in one of the runs. -/
def inSpans (spans : List Config.Span) (a : Nat) : Bool :=
  spans.any (fun sp => sp.base ≤ a && a < sp.base + sp.size)

/-- The address is in MEM_MAP (R41). -/
def mapped (s : State) (a : Word) : Bool := inSpans s.platform.memMap a.toNat

/-- The byte at an address, if it holds a value (R33, R42). -/
def memByte (s : State) (a : Word) : Option Byte :=
  match sparseLookup s.mem a.toNat with
  | some b => some b
  | none => Config.unlistedByte

/-- A store of this run wrote the byte (R55). -/
def wasStored (s : State) (a : Word) : Bool := s.stored.contains a.toNat

/-- The `n` addresses `addr`, `addr + 1`, …, modulo 2^32. -/
def byteAddrs (addr : Word) (n : Nat) : List Word := (List.range n).map (fun k => addr + BitVec.ofNat 32 k)

/-- The values of the bytes at the addresses given, or the fault UnwrittenRead naming the first that holds none (R33). -/
def readBytes (s : State) : List Word → Except Fault (List Byte)
  | [] => .ok []
  | a :: as =>
    match memByte s a with
    | none => .error (.unwrittenRead a)
    | some b =>
      match readBytes s as with
      | .error f => .error f
      | .ok bs => .ok (b :: bs)

/-- `MemRead(addr, n)` (R44): alignment, then MEM_MAP, then the value, little-endian, in the low 8n bits. -/
def memRead (s : State) (addr : Word) (n : Nat) : Except Fault Word :=
  if addr.toNat % n ≠ 0 then .error (.misalignedLoad addr)
  else if !(byteAddrs addr n).all (mapped s) then .error (.loadAccessFault addr)
  else
    match readBytes s (byteAddrs addr n) with
    | .error f => .error f
    | .ok bs => .ok (wordOfBytes bs)

/-- `M[a] <- b` by a store: the byte changes and is recorded as written by a store (R42, R55). -/
def storeByte (s : State) (a : Word) (b : Byte) : State :=
  (s.setMem (sparseInsert s.mem a.toNat b)).setStored (addrInsert s.stored a.toNat)

/-- The bytes to the addresses, in order. -/
def storeBytes (s : State) : List Word → List Byte → State
  | a :: as, b :: bs => storeBytes (storeByte s a b) as bs
  | _, _ => s

/-- `MemWrite(addr, n, v)` (R45): alignment, then MEM_MAP, then all `n` bytes, little-endian; on a fault, none. -/
def memWrite (s : State) (addr : Word) (n : Nat) (v : Word) : Except Fault State :=
  if addr.toNat % n ≠ 0 then .error (.misalignedStore addr)
  else if !(byteAddrs addr n).all (mapped s) then .error (.storeAccessFault addr)
  else .ok (storeBytes s (byteAddrs addr n) (bytesOfWord n v))

/-- Every load: `x[rd] <- ext(MemRead(addr, n)) ; pc <- pc + len` (spec/43_loads.md R130). -/
def loadFrom (s : State) (addr : Word) (n : Nat) (ext : Word → Word) (rd : RegNum) (len : Word) : Result :=
  match memRead s addr n with
  | .error f => raise f
  | .ok v => .next (advanceBy len (writeReg s rd (ext v)))

/-- Every store: `MemWrite(addr, n, v) ; pc <- pc + len` (spec/44_stores.md R140). -/
def storeTo (s : State) (addr : Word) (n : Nat) (v : Word) (len : Word) : Result :=
  match memWrite s addr n v with
  | .error f => raise f
  | .ok t => .next (advanceBy len t)

/-! ## Control and status registers -/

/-- The address is in CSR_SET (R28). -/
def csrImplemented (s : State) (a : CsrAddr) : Bool := inSpans s.platform.csrSet a.toNat

/-- `csr[a]` (R28). -/
def readCsr (s : State) (a : CsrAddr) : Word := (sparseLookup s.csrs a.toNat).getD Config.unlistedCsr

/-- `csr[a] <- v`: the whole 32 bits (R28). -/
def writeCsr (s : State) (a : CsrAddr) (v : Word) : State :=
  if v = Config.unlistedCsr then s.setCsrs (sparseErase s.csrs a.toNat)
  else s.setCsrs (sparseInsert s.csrs a.toNat v)

/-- All six CSR instructions (R190): existence, then `old` is read, `x[rd] <- old`, `csr[a] <- new(old)`,
`pc <- pc + 4`. `new` is computed from the values before the instruction. -/
def csrAccess (s : State) (rd : RegNum) (a : CsrAddr) (new : Word → Word) : Result :=
  if !csrImplemented s a then raise (.csrNotImplemented a)
  else .next (advanceBy Config.ilen (writeCsr (writeReg s rd (readCsr s a)) a (new (readCsr s a))))

end Sys2Proof.Machine
end

