-- ==== Sys2Proof/Machine/Branches.lean ====
section
/-! DEFINITION. The six conditional branches (spec/42_branches.md R120 to R126). -/

namespace Sys2Proof.Machine

/-- R121: equal. -/
def execBeq (rs1 rs2 : RegNum) (off : BitVec 13) (s : State) : Result :=
  branchIf (readReg s rs1 == readReg s rs2) s off

/-- R122: different. -/
def execBne (rs1 rs2 : RegNum) (off : BitVec 13) (s : State) : Result :=
  branchIf (readReg s rs1 != readReg s rs2) s off

/-- R123: less, signed. -/
def execBlt (rs1 rs2 : RegNum) (off : BitVec 13) (s : State) : Result :=
  branchIf (lessSigned (readReg s rs1) (readReg s rs2)) s off

/-- R124: greater or equal, signed. -/
def execBge (rs1 rs2 : RegNum) (off : BitVec 13) (s : State) : Result :=
  branchIf (!lessSigned (readReg s rs1) (readReg s rs2)) s off

/-- R125: less, unsigned. -/
def execBltu (rs1 rs2 : RegNum) (off : BitVec 13) (s : State) : Result :=
  branchIf (lessUnsigned (readReg s rs1) (readReg s rs2)) s off

/-- R126: greater or equal, unsigned. -/
def execBgeu (rs1 rs2 : RegNum) (off : BitVec 13) (s : State) : Result :=
  branchIf (!lessUnsigned (readReg s rs1) (readReg s rs2)) s off

end Sys2Proof.Machine
end

