-- ==== Sys2Proof/Machine/CsrAccess.lean ====
section
/-! DEFINITION. CSRRW, CSRRS, CSRRC, CSRRWI, CSRRSI, CSRRCI (spec/47_csr.md R190 to R196). -/

namespace Sys2Proof.Machine

/-- R191. -/
def execCsrrw (rd : RegNum) (csr : CsrAddr) (rs1 : RegNum) (s : State) : Result :=
  csrAccess s rd csr (fun _ => readReg s rs1)

/-- R192. -/
def execCsrrs (rd : RegNum) (csr : CsrAddr) (rs1 : RegNum) (s : State) : Result :=
  csrAccess s rd csr (fun old => old ||| readReg s rs1)

/-- R193. -/
def execCsrrc (rd : RegNum) (csr : CsrAddr) (rs1 : RegNum) (s : State) : Result :=
  csrAccess s rd csr (fun old => old &&& ~~~(readReg s rs1))

/-- R194. -/
def execCsrrwi (rd : RegNum) (csr : CsrAddr) (zimm : BitVec 5) (s : State) : Result :=
  csrAccess s rd csr (fun _ => unsigned5 zimm)

/-- R195. -/
def execCsrrsi (rd : RegNum) (csr : CsrAddr) (zimm : BitVec 5) (s : State) : Result :=
  csrAccess s rd csr (fun old => old ||| unsigned5 zimm)

/-- R196. -/
def execCsrrci (rd : RegNum) (csr : CsrAddr) (zimm : BitVec 5) (s : State) : Result :=
  csrAccess s rd csr (fun old => old &&& ~~~(unsigned5 zimm))

end Sys2Proof.Machine
end

