-- ==== Sys2Proof/Machine/ImmediateArithmetic.lean ====
section
/-! DEFINITION. ADDI, SLTI, SLTIU, XORI, ORI, ANDI, SLLI, SRLI, SRAI (spec/45_immediate_arithmetic.md R150 to R160). -/

namespace Sys2Proof.Machine

/-- R150. -/
def execAddi (rd rs1 : RegNum) (imm : BitVec 12) (s : State) : Result :=
  finishRd s rd (readReg s rs1 + signed12 imm)

/-- R152. -/
def execSlti (rd rs1 : RegNum) (imm : BitVec 12) (s : State) : Result :=
  finishRd s rd (flagWord (lessSigned (readReg s rs1) (signed12 imm)))

/-- R153: the immediate is sign-extended first, then compared unsigned. -/
def execSltiu (rd rs1 : RegNum) (imm : BitVec 12) (s : State) : Result :=
  finishRd s rd (flagWord (lessUnsigned (readReg s rs1) (signed12 imm)))

/-- R154. -/
def execXori (rd rs1 : RegNum) (imm : BitVec 12) (s : State) : Result :=
  finishRd s rd (readReg s rs1 ^^^ signed12 imm)

/-- R155. -/
def execOri (rd rs1 : RegNum) (imm : BitVec 12) (s : State) : Result :=
  finishRd s rd (readReg s rs1 ||| signed12 imm)

/-- R156. -/
def execAndi (rd rs1 : RegNum) (imm : BitVec 12) (s : State) : Result :=
  finishRd s rd (readReg s rs1 &&& signed12 imm)

/-- R158. -/
def execSlli (rd rs1 : RegNum) (shamt : BitVec 5) (s : State) : Result :=
  finishRd s rd (readReg s rs1 <<< shamt.toNat)

/-- R159. -/
def execSrli (rd rs1 : RegNum) (shamt : BitVec 5) (s : State) : Result :=
  finishRd s rd (readReg s rs1 >>> shamt.toNat)

/-- R160. -/
def execSrai (rd rs1 : RegNum) (shamt : BitVec 5) (s : State) : Result :=
  finishRd s rd ((readReg s rs1).sshiftRight shamt.toNat)

end Sys2Proof.Machine
end

