-- ==== Sys2Proof/Machine/Jumps.lean ====
section
/-! DEFINITION. JAL and JALR (spec/41_jumps.md). -/

namespace Sys2Proof.Machine

/-- R110: `t <- pc + imm_J`, link, jump. -/
def execJal (rd : RegNum) (off : BitVec 21) (s : State) : Result := linkAndJump s rd (s.pc + signed21 off)

/-- R111: `t <- x[rs1] + imm_I`, link, jump; bit 0 of the sum is not cleared. -/
def execJalr (rd rs1 : RegNum) (imm : BitVec 12) (s : State) : Result := linkAndJump s rd (baseOffset s rs1 imm)

end Sys2Proof.Machine
end

