-- ==== Sys2Proof/Machine/Loads.lean ====
section
/-! DEFINITION. LB, LH, LW, LBU, LHU (spec/43_loads.md R130 to R135). -/

namespace Sys2Proof.Machine

/-- R131. -/
def execLb (rd rs1 : RegNum) (imm : BitVec 12) (s : State) : Result :=
  loadFrom s (baseOffset s rs1 imm) 1 signExtendByte rd Config.ilen

/-- R132. -/
def execLh (rd rs1 : RegNum) (imm : BitVec 12) (s : State) : Result :=
  loadFrom s (baseOffset s rs1 imm) 2 signExtendHalf rd Config.ilen

/-- R133. -/
def execLw (rd rs1 : RegNum) (imm : BitVec 12) (s : State) : Result :=
  loadFrom s (baseOffset s rs1 imm) 4 id rd Config.ilen

/-- R134. -/
def execLbu (rd rs1 : RegNum) (imm : BitVec 12) (s : State) : Result :=
  loadFrom s (baseOffset s rs1 imm) 1 zeroExtendByte rd Config.ilen

/-- R135. -/
def execLhu (rd rs1 : RegNum) (imm : BitVec 12) (s : State) : Result :=
  loadFrom s (baseOffset s rs1 imm) 2 zeroExtendHalf rd Config.ilen

end Sys2Proof.Machine
end

