-- ==== Sys2Proof/Machine/Multiply.lean ====
section
/-! DEFINITION. MUL (spec/48_multiply.md). -/

namespace Sys2Proof.Machine

/-- R210: the low 32 bits of the product. -/
def execMul (rd rs1 rs2 : RegNum) (s : State) : Result :=
  finishRd s rd (readReg s rs1 * readReg s rs2)

end Sys2Proof.Machine
end

