-- ==== Sys2Proof/Machine/RegisterArithmetic.lean ====
section
/-! DEFINITION. ADD, SUB, SLL, SLT, SLTU, XOR, SRL, SRA, OR, AND (spec/46_register_arithmetic.md R170 to R180). -/

namespace Sys2Proof.Machine

/-- R171. -/
def execAdd (rd rs1 rs2 : RegNum) (s : State) : Result :=
  finishRd s rd (readReg s rs1 + readReg s rs2)

/-- R172. -/
def execSub (rd rs1 rs2 : RegNum) (s : State) : Result :=
  finishRd s rd (readReg s rs1 - readReg s rs2)

/-- R173. -/
def execSll (rd rs1 rs2 : RegNum) (s : State) : Result :=
  finishRd s rd (readReg s rs1 <<< shiftCount (readReg s rs2))

/-- R174. -/
def execSlt (rd rs1 rs2 : RegNum) (s : State) : Result :=
  finishRd s rd (flagWord (lessSigned (readReg s rs1) (readReg s rs2)))

/-- R175. -/
def execSltu (rd rs1 rs2 : RegNum) (s : State) : Result :=
  finishRd s rd (flagWord (lessUnsigned (readReg s rs1) (readReg s rs2)))

/-- R176. -/
def execXor (rd rs1 rs2 : RegNum) (s : State) : Result :=
  finishRd s rd (readReg s rs1 ^^^ readReg s rs2)

/-- R177. -/
def execSrl (rd rs1 rs2 : RegNum) (s : State) : Result :=
  finishRd s rd (readReg s rs1 >>> shiftCount (readReg s rs2))

/-- R178. -/
def execSra (rd rs1 rs2 : RegNum) (s : State) : Result :=
  finishRd s rd ((readReg s rs1).sshiftRight (shiftCount (readReg s rs2)))

/-- R179. -/
def execOr (rd rs1 rs2 : RegNum) (s : State) : Result :=
  finishRd s rd (readReg s rs1 ||| readReg s rs2)

/-- R180. -/
def execAnd (rd rs1 rs2 : RegNum) (s : State) : Result :=
  finishRd s rd (readReg s rs1 &&& readReg s rs2)

end Sys2Proof.Machine
end

