-- ==== Sys2Proof/Machine/StackPointer.lean ====
section
/-! DEFINITION. SWSP and LWSP (spec/49_stack_pointer.md). No word decodes to them (R215); their
effect is the one the rules record. -/

namespace Sys2Proof.Machine

/-- R216: `MemWrite(x[SP_INDEX] + zext(uimm), 4, x[rs_data]) ; pc <- pc + ILEN_SP`. SP is not changed. -/
def execSwsp (rsData : RegNum) (uimm : Word) (s : State) : Result :=
  storeTo s (spOffset s uimm) 4 (readReg s rsData) Config.ilenSp

/-- R217: `x[rd] <- MemRead(x[SP_INDEX] + zext(uimm), 4) ; pc <- pc + ILEN_SP`. SP is not changed unless it is `rd`. -/
def execLwsp (rd : RegNum) (uimm : Word) (s : State) : Result :=
  loadFrom s (spOffset s uimm) 4 id rd Config.ilenSp

end Sys2Proof.Machine
end

