-- ==== Sys2Proof/Machine/Stores.lean ====
section
/-! DEFINITION. SB, SH, SW (spec/44_stores.md R140 to R143). -/

namespace Sys2Proof.Machine

/-- R141: the low 1 byte of `x[rs2]`. -/
def execSb (rs1 rs2 : RegNum) (imm : BitVec 12) (s : State) : Result :=
  storeTo s (baseOffset s rs1 imm) 1 (readReg s rs2) Config.ilen

/-- R142: the low 2 bytes of `x[rs2]`. -/
def execSh (rs1 rs2 : RegNum) (imm : BitVec 12) (s : State) : Result :=
  storeTo s (baseOffset s rs1 imm) 2 (readReg s rs2) Config.ilen

/-- R143: the low 4 bytes of `x[rs2]`. -/
def execSw (rs1 rs2 : RegNum) (imm : BitVec 12) (s : State) : Result :=
  storeTo s (baseOffset s rs1 imm) 4 (readReg s rs2) Config.ilen

end Sys2Proof.Machine
end

