-- ==== Sys2Proof/Machine/UpperImmediate.lean ====
section
/-! DEFINITION. AUIPC and LUI (spec/40_upper_immediate.md). -/

namespace Sys2Proof.Machine

/-- R100: `x[rd] <- pc + imm_U`. -/
def execAuipc (rd : RegNum) (imm : BitVec 20) (s : State) : Result := finishRd s rd (s.pc + upper20 imm)

/-- R101: `x[rd] <- imm_U`. -/
def execLui (rd : RegNum) (imm : BitVec 20) (s : State) : Result := finishRd s rd (upper20 imm)

end Sys2Proof.Machine
end

