-- ==== Sys2Proof/WellFormed.lean ====
section
/-! DEFINITION. Which instructions the encoding can spell: a branch or JAL offset has bit 0 zero (spec/30_encoding.md
R80, R82), and SWSP and LWSP have no word (R86, spec/49_stack_pointer.md R215). Every other field may hold any value
(R90). -/

namespace Sys2Proof

/-- The operand check: bit 0 of a branch offset (R80) or of JAL's offset (R82) is 0. -/
def operandsOk : Instr → Bool
  | .beq _ _ off | .bne _ _ off | .blt _ _ off | .bge _ _ off | .bltu _ _ off | .bgeu _ _ off => !off.getLsbD 0
  | .jal _ off => !off.getLsbD 0
  | .auipc _ _ | .lui _ _ | .jalr _ _ _ => true
  | .lb _ _ _ | .lh _ _ _ | .lw _ _ _ | .lbu _ _ _ | .lhu _ _ _ => true
  | .sb _ _ _ | .sh _ _ _ | .sw _ _ _ => true
  | .addi _ _ _ | .slti _ _ _ | .sltiu _ _ _ | .xori _ _ _ | .ori _ _ _ | .andi _ _ _ => true
  | .slli _ _ _ | .srli _ _ _ | .srai _ _ _ => true
  | .add _ _ _ | .sub _ _ _ | .sll _ _ _ | .slt _ _ _ | .sltu _ _ _ | .xor _ _ _ => true
  | .srl _ _ _ | .sra _ _ _ | .or _ _ _ | .and _ _ _ | .mul _ _ _ => true
  | .csrrw _ _ _ | .csrrs _ _ _ | .csrrc _ _ _ | .csrrwi _ _ _ | .csrrsi _ _ _ | .csrrci _ _ _ => true
  | .swsp _ _ | .lwsp _ _ => true

/-- The encoding check: the instruction has a row with `match` and `mask` in R87 (SWSP and LWSP have none). -/
def hasEncoding : Instr → Bool
  | .swsp _ _ | .lwsp _ _ => false
  | .auipc _ _ | .lui _ _ | .jal _ _ | .jalr _ _ _ => true
  | .beq _ _ _ | .bne _ _ _ | .blt _ _ _ | .bge _ _ _ | .bltu _ _ _ | .bgeu _ _ _ => true
  | .lb _ _ _ | .lh _ _ _ | .lw _ _ _ | .lbu _ _ _ | .lhu _ _ _ => true
  | .sb _ _ _ | .sh _ _ _ | .sw _ _ _ => true
  | .addi _ _ _ | .slti _ _ _ | .sltiu _ _ _ | .xori _ _ _ | .ori _ _ _ | .andi _ _ _ => true
  | .slli _ _ _ | .srli _ _ _ | .srai _ _ _ => true
  | .add _ _ _ | .sub _ _ _ | .sll _ _ _ | .slt _ _ _ | .sltu _ _ _ | .xor _ _ _ => true
  | .srl _ _ _ | .sra _ _ _ | .or _ _ _ | .and _ _ _ | .mul _ _ _ => true
  | .csrrw _ _ _ | .csrrs _ _ _ | .csrrc _ _ _ | .csrrwi _ _ _ | .csrrsi _ _ _ | .csrrci _ _ _ => true

/-- The instruction is one that some word spells. -/
def wellFormed (i : Instr) : Bool := operandsOk i && hasEncoding i

end Sys2Proof
end

