-- ==== Sys2Proof/Decode.lean ====
section
/-! DEFINITION. The decoder, after spec/30_encoding.md: field positions R71 to R78, immediates R79 to R85, the opcode
map R87, the order of decoding R90, the invalid shifts R91, the refused rest R92. After it the encoder, written from
the same format tables. -/

namespace Sys2Proof

/-! ## Fields and immediates -/

/-- `rd = IR[11:7]` (R71). -/
def fieldRd (ir : Word) : RegNum := ir.extractLsb' 7 5

/-- `rs1 = IR[19:15]` (R71). -/
def fieldRs1 (ir : Word) : RegNum := ir.extractLsb' 15 5

/-- `rs2 = IR[24:20]` (R71). -/
def fieldRs2 (ir : Word) : RegNum := ir.extractLsb' 20 5

/-- `IR[31:20]`: the I immediate before sign extension (R79). -/
def fieldImmI (ir : Word) : BitVec 12 := ir.extractLsb' 20 12

/-- `IR[31:25]`, then `IR[11:7]`: the S immediate before sign extension (R81). -/
def fieldImmS (ir : Word) : BitVec 12 := ir.extractLsb' 25 7 ++ ir.extractLsb' 7 5

/-- `IR[31]`, `IR[7]`, `IR[30:25]`, `IR[11:8]`, 0: the B offset before sign extension (R80). -/
def fieldOffB (ir : Word) : BitVec 13 :=
  ir.extractLsb' 31 1 ++ ir.extractLsb' 7 1 ++ ir.extractLsb' 25 6 ++ ir.extractLsb' 8 4 ++ 0#1

/-- `IR[31:12]`: the upper 20 bits of the U immediate (R83). -/
def fieldImmU (ir : Word) : BitVec 20 := ir.extractLsb' 12 20

/-- `IR[31]`, `IR[19:12]`, `IR[20]`, `IR[30:21]`, 0: the J offset before sign extension (R82). -/
def fieldOffJ (ir : Word) : BitVec 21 :=
  ir.extractLsb' 31 1 ++ ir.extractLsb' 12 8 ++ ir.extractLsb' 20 1 ++ ir.extractLsb' 21 10 ++ 0#1

/-- `shamt = IR[24:20]`; `IR[25]` is part of the function field that the masks of R87 check (R84). -/
def fieldShamt (ir : Word) : BitVec 5 := ir.extractLsb' 20 5

/-- `csr = IR[31:20]` (R85). -/
def fieldCsr (ir : Word) : CsrAddr := ir.extractLsb' 20 12

/-- `zimm = IR[19:15]` (R85). -/
def fieldZimm (ir : Word) : BitVec 5 := ir.extractLsb' 15 5

/-! ## The opcode map -/

/-- One row of R87: `ir` spells the instruction exactly when `ir &&& mask = pattern` (the spec's `match`). -/
structure OpcodeRow where
  name : String
  pattern : Word
  mask : Word
  build : Word → Instr

/-- The mask of a row fixed by `IR[6:0]` alone: formats U and J. -/
def maskOp : Word := 0x0000007F#32

/-- The mask of a row fixed by `IR[6:0]` and `IR[14:12]`: formats I, S and B. -/
def maskOpF3 : Word := 0x0000707F#32

/-- The mask of a row fixed by `IR[6:0]`, `IR[14:12]` and `IR[31:25]`: format R and the shifts by a constant. -/
def maskOpF3F7 : Word := 0xFE00707F#32

/-- U rows (R77) and the J row (R78). -/
def rowsUJ : List OpcodeRow :=
  [ ⟨"AUIPC", 0x00000017#32, maskOp, fun w => .auipc (fieldRd w) (fieldImmU w)⟩,
    ⟨"LUI", 0x00000037#32, maskOp, fun w => .lui (fieldRd w) (fieldImmU w)⟩,
    ⟨"JAL", 0x0000006F#32, maskOp, fun w => .jal (fieldRd w) (fieldOffJ w)⟩,
    ⟨"JALR", 0x00000067#32, maskOpF3, fun w => .jalr (fieldRd w) (fieldRs1 w) (fieldImmI w)⟩ ]

/-- B rows (R76). -/
def rowsB : List OpcodeRow :=
  [ ⟨"BEQ", 0x00000063#32, maskOpF3, fun w => .beq (fieldRs1 w) (fieldRs2 w) (fieldOffB w)⟩,
    ⟨"BNE", 0x00001063#32, maskOpF3, fun w => .bne (fieldRs1 w) (fieldRs2 w) (fieldOffB w)⟩,
    ⟨"BLT", 0x00004063#32, maskOpF3, fun w => .blt (fieldRs1 w) (fieldRs2 w) (fieldOffB w)⟩,
    ⟨"BGE", 0x00005063#32, maskOpF3, fun w => .bge (fieldRs1 w) (fieldRs2 w) (fieldOffB w)⟩,
    ⟨"BLTU", 0x00006063#32, maskOpF3, fun w => .bltu (fieldRs1 w) (fieldRs2 w) (fieldOffB w)⟩,
    ⟨"BGEU", 0x00007063#32, maskOpF3, fun w => .bgeu (fieldRs1 w) (fieldRs2 w) (fieldOffB w)⟩ ]

/-- Load rows (R74) and store rows (R75). -/
def rowsMem : List OpcodeRow :=
  [ ⟨"LB", 0x00000003#32, maskOpF3, fun w => .lb (fieldRd w) (fieldRs1 w) (fieldImmI w)⟩,
    ⟨"LH", 0x00001003#32, maskOpF3, fun w => .lh (fieldRd w) (fieldRs1 w) (fieldImmI w)⟩,
    ⟨"LW", 0x00002003#32, maskOpF3, fun w => .lw (fieldRd w) (fieldRs1 w) (fieldImmI w)⟩,
    ⟨"LBU", 0x00004003#32, maskOpF3, fun w => .lbu (fieldRd w) (fieldRs1 w) (fieldImmI w)⟩,
    ⟨"LHU", 0x00005003#32, maskOpF3, fun w => .lhu (fieldRd w) (fieldRs1 w) (fieldImmI w)⟩,
    ⟨"SB", 0x00000023#32, maskOpF3, fun w => .sb (fieldRs1 w) (fieldRs2 w) (fieldImmS w)⟩,
    ⟨"SH", 0x00001023#32, maskOpF3, fun w => .sh (fieldRs1 w) (fieldRs2 w) (fieldImmS w)⟩,
    ⟨"SW", 0x00002023#32, maskOpF3, fun w => .sw (fieldRs1 w) (fieldRs2 w) (fieldImmS w)⟩ ]

/-- Register-immediate rows (R74), the shifts with the 7-bit function field of R84. -/
def rowsImm : List OpcodeRow :=
  [ ⟨"ADDI", 0x00000013#32, maskOpF3, fun w => .addi (fieldRd w) (fieldRs1 w) (fieldImmI w)⟩,
    ⟨"SLTI", 0x00002013#32, maskOpF3, fun w => .slti (fieldRd w) (fieldRs1 w) (fieldImmI w)⟩,
    ⟨"SLTIU", 0x00003013#32, maskOpF3, fun w => .sltiu (fieldRd w) (fieldRs1 w) (fieldImmI w)⟩,
    ⟨"XORI", 0x00004013#32, maskOpF3, fun w => .xori (fieldRd w) (fieldRs1 w) (fieldImmI w)⟩,
    ⟨"ORI", 0x00006013#32, maskOpF3, fun w => .ori (fieldRd w) (fieldRs1 w) (fieldImmI w)⟩,
    ⟨"ANDI", 0x00007013#32, maskOpF3, fun w => .andi (fieldRd w) (fieldRs1 w) (fieldImmI w)⟩,
    ⟨"SLLI", 0x00001013#32, maskOpF3F7, fun w => .slli (fieldRd w) (fieldRs1 w) (fieldShamt w)⟩,
    ⟨"SRLI", 0x00005013#32, maskOpF3F7, fun w => .srli (fieldRd w) (fieldRs1 w) (fieldShamt w)⟩,
    ⟨"SRAI", 0x40005013#32, maskOpF3F7, fun w => .srai (fieldRd w) (fieldRs1 w) (fieldShamt w)⟩ ]

/-- Register-register rows (R73). MUL's `IR[31:25]` is the spec's decision (R88). -/
def rowsReg : List OpcodeRow :=
  [ ⟨"ADD", 0x00000033#32, maskOpF3F7, fun w => .add (fieldRd w) (fieldRs1 w) (fieldRs2 w)⟩,
    ⟨"SUB", 0x40000033#32, maskOpF3F7, fun w => .sub (fieldRd w) (fieldRs1 w) (fieldRs2 w)⟩,
    ⟨"SLL", 0x00001033#32, maskOpF3F7, fun w => .sll (fieldRd w) (fieldRs1 w) (fieldRs2 w)⟩,
    ⟨"SLT", 0x00002033#32, maskOpF3F7, fun w => .slt (fieldRd w) (fieldRs1 w) (fieldRs2 w)⟩,
    ⟨"SLTU", 0x00003033#32, maskOpF3F7, fun w => .sltu (fieldRd w) (fieldRs1 w) (fieldRs2 w)⟩,
    ⟨"XOR", 0x00004033#32, maskOpF3F7, fun w => .xor (fieldRd w) (fieldRs1 w) (fieldRs2 w)⟩,
    ⟨"SRL", 0x00005033#32, maskOpF3F7, fun w => .srl (fieldRd w) (fieldRs1 w) (fieldRs2 w)⟩,
    ⟨"SRA", 0x40005033#32, maskOpF3F7, fun w => .sra (fieldRd w) (fieldRs1 w) (fieldRs2 w)⟩,
    ⟨"OR", 0x00006033#32, maskOpF3F7, fun w => .or (fieldRd w) (fieldRs1 w) (fieldRs2 w)⟩,
    ⟨"AND", 0x00007033#32, maskOpF3F7, fun w => .and (fieldRd w) (fieldRs1 w) (fieldRs2 w)⟩,
    ⟨"MUL", 0x02000033#32, maskOpF3F7, fun w => .mul (fieldRd w) (fieldRs1 w) (fieldRs2 w)⟩ ]

/-- CSR rows (R74, R85). -/
def rowsCsr : List OpcodeRow :=
  [ ⟨"CSRRW", 0x00001073#32, maskOpF3, fun w => .csrrw (fieldRd w) (fieldCsr w) (fieldRs1 w)⟩,
    ⟨"CSRRS", 0x00002073#32, maskOpF3, fun w => .csrrs (fieldRd w) (fieldCsr w) (fieldRs1 w)⟩,
    ⟨"CSRRC", 0x00003073#32, maskOpF3, fun w => .csrrc (fieldRd w) (fieldCsr w) (fieldRs1 w)⟩,
    ⟨"CSRRWI", 0x00005073#32, maskOpF3, fun w => .csrrwi (fieldRd w) (fieldCsr w) (fieldZimm w)⟩,
    ⟨"CSRRSI", 0x00006073#32, maskOpF3, fun w => .csrrsi (fieldRd w) (fieldCsr w) (fieldZimm w)⟩,
    ⟨"CSRRCI", 0x00007073#32, maskOpF3, fun w => .csrrci (fieldRd w) (fieldCsr w) (fieldZimm w)⟩ ]

/-- The opcode map (R87): 44 rows. SWSP and LWSP have none (R86). -/
def opcodeTable : List OpcodeRow := rowsUJ ++ rowsB ++ rowsMem ++ rowsImm ++ rowsReg ++ rowsCsr

/-- The patterns of the one encoding the source calls invalid, a shift by a constant with `IR[25] = 1`: SLLI, SRLI and
SRAI, each under the mask `maskOpF3F7` (R91). -/
def invalidShiftPatterns : List Word := [0x02001013#32, 0x02005013#32, 0x42005013#32]

/-! ## The decoder -/

/-- What decoding a word gives (R90). -/
inductive Decoded where
  /-- The word spells this instruction. -/
  | instr (i : Instr)
  /-- The word is a shift by a constant with `IR[25] = 1` (R91). -/
  | illegalInstruction
  /-- The source gives the word no meaning (R92). -/
  | unknownEncoding
  deriving DecidableEq, Repr

/-- R90: first the invalid shifts, then the rows, else unknown. -/
def decode (ir : Word) : Decoded :=
  if invalidShiftPatterns.any (fun p => ir &&& maskOpF3F7 == p) then .illegalInstruction
  else
    match opcodeTable.find? (fun r => ir &&& r.mask == r.pattern) with
    | some r => .instr (r.build ir)
    | none => .unknownEncoding

/-- The decoder on the four bytes of an instruction in memory order (spec/20_memory.md R46). -/
def decodeBytes (bytes : List Byte) : Decoded := decode (Machine.wordOfBytes bytes)

/-- The instruction of a decoding, if there is one. -/
def decodedInstr? : Decoded → Option Instr
  | .instr i => some i
  | .illegalInstruction | .unknownEncoding => none

/-- What the decoder reads from the instruction whose low `nbits` bits are those of `w` and whose other bits are 0,
laid out in memory as the hardware stores it: four bytes, little-endian (spec/20_memory.md R43, R70). -/
def decodeTableWord (nbits w : Nat) : Option Instr :=
  decodedInstr? (decodeBytes (Machine.bytesOfWord 4 (BitVec.ofNat 32 (w % 2 ^ nbits))))

/-! ## The encoder -/

/-- Format R (R73), and the shift variant of format I, whose shift amount stands where `rs2` stands (R84). -/
def encodeR (funct7 : BitVec 7) (rs2 rs1 : RegNum) (funct3 : BitVec 3) (rd : RegNum) (opcode : BitVec 7) : Word :=
  funct7 ++ rs2 ++ rs1 ++ funct3 ++ rd ++ opcode

/-- Format I (R74); the CSR variant holds `csr` in the immediate's place and, for the three immediate forms, `zimm` in
`rs1`'s place (R85). -/
def encodeI (imm : BitVec 12) (rs1 : RegNum) (funct3 : BitVec 3) (rd : RegNum) (opcode : BitVec 7) : Word :=
  imm ++ rs1 ++ funct3 ++ rd ++ opcode

/-- Format S (R75). -/
def encodeS (imm : BitVec 12) (rs2 rs1 : RegNum) (funct3 : BitVec 3) (opcode : BitVec 7) : Word :=
  imm.extractLsb' 5 7 ++ rs2 ++ rs1 ++ funct3 ++ imm.extractLsb' 0 5 ++ opcode

/-- Format B (R76). Bit 0 of the offset is in no bit of the word. -/
def encodeB (off : BitVec 13) (rs2 rs1 : RegNum) (funct3 : BitVec 3) (opcode : BitVec 7) : Word :=
  off.extractLsb' 12 1 ++ off.extractLsb' 5 6 ++ rs2 ++ rs1 ++ funct3 ++ off.extractLsb' 1 4 ++ off.extractLsb' 11 1
    ++ opcode

/-- Format U (R77). -/
def encodeU (imm : BitVec 20) (rd : RegNum) (opcode : BitVec 7) : Word :=
  imm ++ rd ++ opcode

/-- Format J (R78). Bit 0 of the offset is in no bit of the word. -/
def encodeJ (off : BitVec 21) (rd : RegNum) (opcode : BitVec 7) : Word :=
  off.extractLsb' 20 1 ++ off.extractLsb' 1 10 ++ off.extractLsb' 11 1 ++ off.extractLsb' 12 8 ++ rd ++ opcode

/-- The word of an instruction, from the function-field columns of R87; none for SWSP and LWSP (R86). -/
def encode : Instr → Option Word
  | .auipc rd imm => some (encodeU imm rd 0b0010111#7)
  | .lui rd imm => some (encodeU imm rd 0b0110111#7)
  | .jal rd off => some (encodeJ off rd 0b1101111#7)
  | .jalr rd rs1 imm => some (encodeI imm rs1 0b000#3 rd 0b1100111#7)
  | .beq rs1 rs2 off => some (encodeB off rs2 rs1 0b000#3 0b1100011#7)
  | .bne rs1 rs2 off => some (encodeB off rs2 rs1 0b001#3 0b1100011#7)
  | .blt rs1 rs2 off => some (encodeB off rs2 rs1 0b100#3 0b1100011#7)
  | .bge rs1 rs2 off => some (encodeB off rs2 rs1 0b101#3 0b1100011#7)
  | .bltu rs1 rs2 off => some (encodeB off rs2 rs1 0b110#3 0b1100011#7)
  | .bgeu rs1 rs2 off => some (encodeB off rs2 rs1 0b111#3 0b1100011#7)
  | .lb rd rs1 imm => some (encodeI imm rs1 0b000#3 rd 0b0000011#7)
  | .lh rd rs1 imm => some (encodeI imm rs1 0b001#3 rd 0b0000011#7)
  | .lw rd rs1 imm => some (encodeI imm rs1 0b010#3 rd 0b0000011#7)
  | .lbu rd rs1 imm => some (encodeI imm rs1 0b100#3 rd 0b0000011#7)
  | .lhu rd rs1 imm => some (encodeI imm rs1 0b101#3 rd 0b0000011#7)
  | .sb rs1 rs2 imm => some (encodeS imm rs2 rs1 0b000#3 0b0100011#7)
  | .sh rs1 rs2 imm => some (encodeS imm rs2 rs1 0b001#3 0b0100011#7)
  | .sw rs1 rs2 imm => some (encodeS imm rs2 rs1 0b010#3 0b0100011#7)
  | .addi rd rs1 imm => some (encodeI imm rs1 0b000#3 rd 0b0010011#7)
  | .slti rd rs1 imm => some (encodeI imm rs1 0b010#3 rd 0b0010011#7)
  | .sltiu rd rs1 imm => some (encodeI imm rs1 0b011#3 rd 0b0010011#7)
  | .xori rd rs1 imm => some (encodeI imm rs1 0b100#3 rd 0b0010011#7)
  | .ori rd rs1 imm => some (encodeI imm rs1 0b110#3 rd 0b0010011#7)
  | .andi rd rs1 imm => some (encodeI imm rs1 0b111#3 rd 0b0010011#7)
  | .slli rd rs1 shamt => some (encodeR 0b0000000#7 shamt rs1 0b001#3 rd 0b0010011#7)
  | .srli rd rs1 shamt => some (encodeR 0b0000000#7 shamt rs1 0b101#3 rd 0b0010011#7)
  | .srai rd rs1 shamt => some (encodeR 0b0100000#7 shamt rs1 0b101#3 rd 0b0010011#7)
  | .add rd rs1 rs2 => some (encodeR 0b0000000#7 rs2 rs1 0b000#3 rd 0b0110011#7)
  | .sub rd rs1 rs2 => some (encodeR 0b0100000#7 rs2 rs1 0b000#3 rd 0b0110011#7)
  | .sll rd rs1 rs2 => some (encodeR 0b0000000#7 rs2 rs1 0b001#3 rd 0b0110011#7)
  | .slt rd rs1 rs2 => some (encodeR 0b0000000#7 rs2 rs1 0b010#3 rd 0b0110011#7)
  | .sltu rd rs1 rs2 => some (encodeR 0b0000000#7 rs2 rs1 0b011#3 rd 0b0110011#7)
  | .xor rd rs1 rs2 => some (encodeR 0b0000000#7 rs2 rs1 0b100#3 rd 0b0110011#7)
  | .srl rd rs1 rs2 => some (encodeR 0b0000000#7 rs2 rs1 0b101#3 rd 0b0110011#7)
  | .sra rd rs1 rs2 => some (encodeR 0b0100000#7 rs2 rs1 0b101#3 rd 0b0110011#7)
  | .or rd rs1 rs2 => some (encodeR 0b0000000#7 rs2 rs1 0b110#3 rd 0b0110011#7)
  | .and rd rs1 rs2 => some (encodeR 0b0000000#7 rs2 rs1 0b111#3 rd 0b0110011#7)
  | .csrrw rd csr rs1 => some (encodeI csr rs1 0b001#3 rd 0b1110011#7)
  | .csrrs rd csr rs1 => some (encodeI csr rs1 0b010#3 rd 0b1110011#7)
  | .csrrc rd csr rs1 => some (encodeI csr rs1 0b011#3 rd 0b1110011#7)
  | .csrrwi rd csr zimm => some (encodeI csr zimm 0b101#3 rd 0b1110011#7)
  | .csrrsi rd csr zimm => some (encodeI csr zimm 0b110#3 rd 0b1110011#7)
  | .csrrci rd csr zimm => some (encodeI csr zimm 0b111#3 rd 0b1110011#7)
  | .mul rd rs1 rs2 => some (encodeR 0b0000001#7 rs2 rs1 0b000#3 rd 0b0110011#7)
  | .swsp _ _ => none
  | .lwsp _ _ => none

end Sys2Proof
end

