-- ==== Sys2Proof/Machine/Fetch.lean ====
section
/-! DEFINITION. Fetching and decoding the instruction at the pc (spec/20_memory.md R46, R55, spec/30_encoding.md R90),
with the checks in the order of spec/60_exceptions.md R225; and placing a word there from outside the machine. -/

namespace Sys2Proof.Machine

/-- The word at the pc (R46), or the first check of R225 (1) to (4) that applies. -/
def fetch (s : State) : Host.Outcome Word Fault Refusal :=
  if s.pc.toNat % Config.ialign ≠ 0 then .fault (.misalignedFetch s.pc)
  else if !(byteAddrs s.pc 4).all (mapped s) then .fault (.fetchAccessFault s.pc)
  else if (byteAddrs s.pc 4).any (wasStored s) then .refused (.selfModifyingCode s.pc)
  else
    match readBytes s (byteAddrs s.pc 4) with
    | .error f => .fault f
    | .ok bs => .next (wordOfBytes bs)

/-- The instruction at the pc, or the first check of R225 (1) to (6) that applies. -/
def fetchInstr (s : State) : Host.Outcome Instr Fault Refusal :=
  match fetch s with
  | .fault f => .fault f
  | .refused r => .refused r
  | .next ir =>
    match decode ir with
    | .illegalInstruction => .fault (.illegalInstruction ir)
    | .unknownEncoding => .refused (.unknownEncoding ir)
    | .instr i => .next i

/-- The fetch address: the pc, with its two low bits cleared where they are not zero. -/
def fetchBase (s : State) : Word := s.pc &&& 0xFFFFFFFC#32

/-- Put a byte into memory from outside the machine: it holds the value and counts as not written by a store. -/
def placeByte (s : State) (a : Word) (b : Byte) : State :=
  (s.setMem (sparseInsert s.mem a.toNat b)).setStored (s.stored.filter (fun k => k ≠ a.toNat))

/-- The bytes to the addresses, in order. -/
def placeBytes (s : State) : List Word → List Byte → State
  | a :: as, b :: bs => placeBytes (placeByte s a b) as bs
  | _, _ => s

/-- Make the addresses part of MEM_MAP where they are not: one run of four bytes is added. -/
def mapFetch (s : State) : State :=
  if (byteAddrs s.pc 4).all (mapped s) then s
  else s.setPlatform { s.platform with memMap := ⟨s.pc.toNat, 4⟩ :: s.platform.memMap }

/-- Store a word where `fetch` reads its next instruction, and set all that this fetch needs. Log entry 10. -/
def placeWord (s : State) (w : Word) : State :=
  placeBytes (mapFetch (s.setPc (fetchBase s))) (byteAddrs (fetchBase s) 4) (bytesOfWord 4 w)

end Sys2Proof.Machine
end

