-- ==== Sys2Proof/Machine/Step.lean ====
section
/-! DEFINITION. One step: fetch, decode, execute (spec/70_reset_and_hazards.md R259). -/

namespace Sys2Proof.Machine

/-- One step (R259). Nothing happens between two steps (spec/60_exceptions.md R230). -/
def step (s : State) : Host.Outcome State Fault Refusal :=
  match fetchInstr s with
  | .next i => exec i s
  | .fault f => raise f
  | .refused r => refuse r

/-- The state with the instruction whose low `nbits` bits are those of `w`, the other bits 0, where the next step
fetches. Log entry 10. -/
def State.withFetchWord (s : State) (nbits w : Nat) : State :=
  placeWord s (BitVec.ofNat 32 (w % 2 ^ nbits))

end Sys2Proof.Machine
end

