-- ==== Sys2Proof/Safety.lean ====
section
/-! DEFINITION. The terms the statements use: what an instruction may touch, frames, the invariant of the state, runs and
their ends (spec/70_reset_and_hazards.md R258, R259), and what a word of each format spells (spec/30_encoding.md R73 to
R87, written out from its slices and not through the decoder's own field functions). -/

namespace Sys2Proof.Machine

/-! ## What an instruction may touch -/

/-- The general register an instruction writes: its `rd`, for the instructions of the "Write `rd`" list of
spec/10_state.md R23. -/
def destReg : Instr → Option RegNum
  | .auipc rd _ | .lui rd _ | .jal rd _ | .jalr rd _ _ => some rd
  | .lb rd _ _ | .lh rd _ _ | .lw rd _ _ | .lbu rd _ _ | .lhu rd _ _ => some rd
  | .addi rd _ _ | .slti rd _ _ | .sltiu rd _ _ | .xori rd _ _ | .ori rd _ _ | .andi rd _ _ => some rd
  | .slli rd _ _ | .srli rd _ _ | .srai rd _ _ => some rd
  | .add rd _ _ | .sub rd _ _ | .sll rd _ _ | .slt rd _ _ | .sltu rd _ _ | .xor rd _ _ => some rd
  | .srl rd _ _ | .sra rd _ _ | .or rd _ _ | .and rd _ _ | .mul rd _ _ => some rd
  | .csrrw rd _ _ | .csrrs rd _ _ | .csrrc rd _ _ | .csrrwi rd _ _ | .csrrsi rd _ _ | .csrrci rd _ _ => some rd
  | .lwsp rd _ => some rd
  | .beq _ _ _ | .bne _ _ _ | .blt _ _ _ | .bge _ _ _ | .bltu _ _ _ | .bgeu _ _ _ => none
  | .sb _ _ _ | .sh _ _ _ | .sw _ _ _ | .swsp _ _ => none

/-- The CSR an instruction names: the six instructions of spec/47_csr.md. -/
def csrOperand : Instr → Option CsrAddr
  | .csrrw _ a _ | .csrrs _ a _ | .csrrc _ a _ | .csrrwi _ a _ | .csrrsi _ a _ | .csrrci _ a _ => some a
  | .auipc _ _ | .lui _ _ | .jal _ _ | .jalr _ _ _ => none
  | .beq _ _ _ | .bne _ _ _ | .blt _ _ _ | .bge _ _ _ | .bltu _ _ _ | .bgeu _ _ _ => none
  | .lb _ _ _ | .lh _ _ _ | .lw _ _ _ | .lbu _ _ _ | .lhu _ _ _ => none
  | .sb _ _ _ | .sh _ _ _ | .sw _ _ _ => none
  | .addi _ _ _ | .slti _ _ _ | .sltiu _ _ _ | .xori _ _ _ | .ori _ _ _ | .andi _ _ _ => none
  | .slli _ _ _ | .srli _ _ _ | .srai _ _ _ => none
  | .add _ _ _ | .sub _ _ _ | .sll _ _ _ | .slt _ _ _ | .sltu _ _ _ | .xor _ _ _ => none
  | .srl _ _ _ | .sra _ _ _ | .or _ _ _ | .and _ _ _ | .mul _ _ _ => none
  | .swsp _ _ | .lwsp _ _ => none

/-- The address and the number of bytes an instruction stores to, computed as its meaning computes them: SB, SH, SW and
SWSP (spec/20_memory.md R50). -/
def storeTarget (s : State) : Instr → Option (Word × Nat)
  | .sb rs1 _ imm => some (baseOffset s rs1 imm, 1)
  | .sh rs1 _ imm => some (baseOffset s rs1 imm, 2)
  | .sw rs1 _ imm => some (baseOffset s rs1 imm, 4)
  | .swsp _ uimm => some (spOffset s uimm, 4)
  | .auipc _ _ | .lui _ _ | .jal _ _ | .jalr _ _ _ => none
  | .beq _ _ _ | .bne _ _ _ | .blt _ _ _ | .bge _ _ _ | .bltu _ _ _ | .bgeu _ _ _ => none
  | .lb _ _ _ | .lh _ _ _ | .lw _ _ _ | .lbu _ _ _ | .lhu _ _ _ | .lwsp _ _ => none
  | .addi _ _ _ | .slti _ _ _ | .sltiu _ _ _ | .xori _ _ _ | .ori _ _ _ | .andi _ _ _ => none
  | .slli _ _ _ | .srli _ _ _ | .srai _ _ _ => none
  | .add _ _ _ | .sub _ _ _ | .sll _ _ _ | .slt _ _ _ | .sltu _ _ _ | .xor _ _ _ => none
  | .srl _ _ _ | .sra _ _ _ | .or _ _ _ | .and _ _ _ | .mul _ _ _ => none
  | .csrrw _ _ _ | .csrrs _ _ _ | .csrrc _ _ _ | .csrrwi _ _ _ | .csrrsi _ _ _ | .csrrci _ _ _ => none

/-- The instruction can set the pc to something else than the next address in sequence: the jumps and the branches
(spec/10_state.md R25). -/
def transfersControl : Instr → Bool
  | .jal _ _ | .jalr _ _ _ => true
  | .beq _ _ _ | .bne _ _ _ | .blt _ _ _ | .bge _ _ _ | .bltu _ _ _ | .bgeu _ _ _ => true
  | .auipc _ _ | .lui _ _ => false
  | .lb _ _ _ | .lh _ _ _ | .lw _ _ _ | .lbu _ _ _ | .lhu _ _ _ => false
  | .sb _ _ _ | .sh _ _ _ | .sw _ _ _ => false
  | .addi _ _ _ | .slti _ _ _ | .sltiu _ _ _ | .xori _ _ _ | .ori _ _ _ | .andi _ _ _ => false
  | .slli _ _ _ | .srli _ _ _ | .srai _ _ _ => false
  | .add _ _ _ | .sub _ _ _ | .sll _ _ _ | .slt _ _ _ | .sltu _ _ _ | .xor _ _ _ => false
  | .srl _ _ _ | .sra _ _ _ | .or _ _ _ | .and _ _ _ | .mul _ _ _ => false
  | .csrrw _ _ _ | .csrrs _ _ _ | .csrrc _ _ _ | .csrrwi _ _ _ | .csrrsi _ _ _ | .csrrci _ _ _ => false
  | .swsp _ _ | .lwsp _ _ => false

/-- The faults an instruction itself can raise: the "By" column of the fault table (spec/60_exceptions.md R222), but for
UnwrittenRead. The column gives that fault to any instruction that reads state; that a register or a CSR cell never raises
it, so that only the loads do, is the model's choice (DESIGN CHOICE, log entries 1 and 3). The three faults of fetch and
decode are raised by no instruction's execution. -/
def mayRaise (i : Instr) : Fault → Bool
  | .misalignedFetch _ | .fetchAccessFault _ | .illegalInstruction _ => false
  | .misalignedTarget _ => transfersControl i
  | .misalignedLoad _ =>
    match i with
    | .lh _ _ _ | .lhu _ _ _ | .lw _ _ _ | .lwsp _ _ => true
    | _ => false
  | .loadAccessFault _ | .unwrittenRead _ =>
    match i with
    | .lb _ _ _ | .lbu _ _ _ | .lh _ _ _ | .lhu _ _ _ | .lw _ _ _ | .lwsp _ _ => true
    | _ => false
  | .misalignedStore _ =>
    match i with
    | .sh _ _ _ | .sw _ _ _ | .swsp _ _ => true
    | _ => false
  | .storeAccessFault _ =>
    match i with
    | .sb _ _ _ | .sh _ _ _ | .sw _ _ _ | .swsp _ _ => true
    | _ => false
  | .csrNotImplemented a => csrOperand i == some a

/-! ## Frames -/

/-- Every general register reads as before. -/
def SameRegs (s t : State) : Prop := ∀ r, readReg t r = readReg s r

/-- Every CSR cell reads as before. -/
def SameCsrs (s t : State) : Prop := ∀ a, readCsr t a = readCsr s a

/-- Every byte of memory reads as before, and the same bytes count as written by stores. -/
def SameMemory (s t : State) : Prop :=
  (∀ a, memByte t a = memByte s a) ∧ ∀ a, wasStored t a = wasStored s a

/-- MEM_MAP and CSR_SET are as before. -/
def SamePlatform (s t : State) : Prop := t.platform = s.platform

/-- Nothing but `rd` and the pc changes. -/
def OnlyRd (s t : State) (rd : RegNum) : Prop :=
  (∀ r, r ≠ rd → readReg t r = readReg s r) ∧ SameCsrs s t ∧ SameMemory s t ∧ SamePlatform s t

/-- `rd` holds a value with the property; where `rd` is x[0] nothing is written and it reads as 0
(spec/10_state.md R21). -/
def RdHolds (t : State) (rd : RegNum) (P : Word → Prop) : Prop :=
  (rd ≠ 0#5 → P (readReg t rd)) ∧ readReg t 0#5 = 0#32

/-- The instruction completes: the pc moves by `len`, `rd` gets a value with the property, nothing else changes. -/
def CompletesBy (len : Word) (i : Instr) (s : State) (rd : RegNum) (P : Word → Prop) : Prop :=
  ∃ t, exec i s = .next t ∧ t.pc = s.pc + len ∧ RdHolds t rd P ∧ OnlyRd s t rd

/-- The instruction completes and goes on to `pc + 4`. -/
def Completes (i : Instr) (s : State) (rd : RegNum) (P : Word → Prop) : Prop := CompletesBy 4 i s rd P

/-- A jump to `t` completes: `rd` gets `pc + 4` (spec/41_jumps.md R110), nothing else changes. -/
def JumpCompletes (i : Instr) (s : State) (rd : RegNum) (t : Word) : Prop :=
  ∃ u, exec i s = .next u ∧ u.pc = t ∧ RdHolds u rd (fun v => v = s.pc + 4) ∧ OnlyRd s u rd

/-- A jump: it completes where the target is a multiple of 4, and faults where it is not (spec/20_memory.md R48). -/
def JumpsTo (i : Instr) (s : State) (rd : RegNum) (t : Word) : Prop :=
  (t.toNat % 4 = 0 → JumpCompletes i s rd t) ∧ (t.toNat % 4 ≠ 0 → exec i s = .fault (.misalignedTarget t))

/-- A branch with a condition on its two operands (spec/42_branches.md R120): only the pc changes; taken, it goes to `t`
or faults; not taken, it never faults. -/
def BranchesOn (i : Instr) (s : State) (cond : Prop) (t : Word) : Prop :=
  (cond → t.toNat % 4 = 0 → exec i s = .next (s.setPc t)) ∧
  (cond → t.toNat % 4 ≠ 0 → exec i s = .fault (.misalignedTarget t)) ∧
  (¬ cond → exec i s = .next (s.setPc (s.pc + 4)))

/-- The `n` bytes from `addr` are in MEM_MAP (spec/20_memory.md R41). -/
def AllMapped (s : State) (addr : Word) (n : Nat) : Prop :=
  ∀ k < n, mapped s (addr + BitVec.ofNat 32 k) = true

/-- The bytes from `addr` hold these values. -/
def BytesAre (s : State) (addr : Word) (bytes : List Byte) : Prop :=
  ∀ k < bytes.length, memByte s (addr + BitVec.ofNat 32 k) = bytes[k]?

/-- A load of `n` bytes at `addr` that is not aligned faults (spec/20_memory.md R44, R47). -/
def LoadMisaligned (i : Instr) (s : State) (addr : Word) (n : Nat) : Prop :=
  addr.toNat % n ≠ 0 → exec i s = .fault (.misalignedLoad addr)

/-- An aligned load of `n` bytes at `addr` stops where a byte is outside MEM_MAP (spec/20_memory.md R44). -/
def LoadStops (i : Instr) (s : State) (addr : Word) (n : Nat) : Prop :=
  addr.toNat % n = 0 → ¬ AllMapped s addr n → exec i s = .fault (.loadAccessFault addr)

/-- An aligned, mapped load of `n` bytes at `addr` stops where a byte holds no value (spec/10_state.md R33); of several, the
lowest is named (log entries 4 and 9). -/
def LoadUnwritten (i : Instr) (s : State) (addr : Word) (n : Nat) : Prop :=
  addr.toNat % n = 0 → AllMapped s addr n → ∀ k < n, memByte s (addr + BitVec.ofNat 32 k) = none →
    (∀ j < k, memByte s (addr + BitVec.ofNat 32 j) ≠ none) →
    exec i s = .fault (.unwrittenRead (addr + BitVec.ofNat 32 k))

/-- A store completes: the pc moves by `len`, the bytes land at `addr`, `addr + 1`, … and are recorded as stored, every
other byte and everything else is as before (spec/20_memory.md R45, spec/44_stores.md R140). -/
def StoreCompletes (len : Word) (i : Instr) (s : State) (addr : Word) (bytes : List Byte) : Prop :=
  ∃ t, exec i s = .next t ∧ t.pc = s.pc + len ∧ SameRegs s t ∧ SameCsrs s t ∧ SamePlatform s t ∧
    BytesAre t addr bytes ∧
    (∀ a, bytes.length ≤ (a - addr).toNat → memByte t a = memByte s a) ∧
    (∀ a, wasStored t a = (wasStored s a || decide ((a - addr).toNat < bytes.length)))

/-- A store of `n` bytes at `addr` that is not aligned faults (spec/20_memory.md R45, R47). -/
def StoreMisaligned (i : Instr) (s : State) (addr : Word) (n : Nat) : Prop :=
  addr.toNat % n ≠ 0 → exec i s = .fault (.misalignedStore addr)

/-- An aligned store of `n` bytes at `addr` stops where a byte is outside MEM_MAP (spec/20_memory.md R45). -/
def StoreStops (i : Instr) (s : State) (addr : Word) (n : Nat) : Prop :=
  addr.toNat % n = 0 → ¬ AllMapped s addr n → exec i s = .fault (.storeAccessFault addr)

/-- A CSR instruction on an implemented address completes: `rd` gets the old value, the cell gets a value with the
property, every other cell, register and byte is as before (spec/47_csr.md R190). -/
def CsrCompletes (i : Instr) (s : State) (rd : RegNum) (a : CsrAddr) (P : Word → Prop) : Prop :=
  ∃ t, exec i s = .next t ∧ t.pc = s.pc + 4 ∧ RdHolds t rd (fun v => v = readCsr s a) ∧
    (∀ r, r ≠ rd → readReg t r = readReg s r) ∧ P (readCsr t a) ∧
    (∀ c, c ≠ a → readCsr t c = readCsr s c) ∧ SameMemory s t ∧ SamePlatform s t

/-! ## The invariant -/

/-- What every state of a run satisfies: memory, the CSR file and the set of stored bytes are in canonical form; every
stored byte holds a value and is in MEM_MAP (spec/20_memory.md R45); every listed CSR is in CSR_SET
(spec/10_state.md R28); the slot of x[0] holds 0 (R21); the pc is a multiple of 4 (R25). -/
structure Inv (s : State) : Prop where
  memCanonical : Memory.wf s.mem = true
  csrsCanonical : CsrFile.wf s.csrs = true
  storedCanonical : rising s.stored = true
  storedListed : ∀ a ∈ s.stored, (sparseLookup s.mem a).isSome = true
  storedMapped : ∀ a ∈ s.stored, inSpans s.platform.memMap a = true
  csrsImplemented : ∀ e ∈ s.csrs, inSpans s.platform.csrSet e.1 = true
  zeroSlot : s.regs[0] = 0
  pcAligned : s.pc.toNat % 4 = 0

/-! ## Runs and their ends -/

/-- How a bounded run ends (spec/70_reset_and_hazards.md R258): finished, stopped by a fault or a refusal (which is never a
finished run), or still running when the bound is reached. -/
inductive RunEnd where
  | finished (s : State)
  | fault (f : Fault)
  | refused (r : Refusal)
  | running (s : State)
  deriving DecidableEq, Repr

/-- At most `n` steps, with END_OF_RUN the open parameter of R258. -/
def runUntil (endOfRun : State → Bool) : Nat → State → RunEnd
  | n, s =>
    if endOfRun s then .finished s
    else
      match n with
      | 0 => .running s
      | n + 1 =>
        match step s with
        | .next t => runUntil endOfRun n t
        | .fault f => .fault f
        | .refused r => .refused r

/-- The spec's own END_OF_RUN convention: the pc is at a `JAL x0, 0`, the word 0x0000006F (R258). -/
def atSelfJump (s : State) : Bool :=
  match fetch s with
  | .next ir => ir == 0x0000006F#32
  | .fault _ | .refused _ => false

/-! ## What a word of each format spells -/

/-- Format U (R77): a word under this pattern, and no other, decodes to the instruction with these fields. -/
def RowU (pattern : Word) (mk : RegNum → BitVec 20 → Instr) : Prop :=
  ∀ w : Word, w &&& 0x0000007F#32 = pattern ↔ decode w = .instr (mk (w.extractLsb' 7 5) (w.extractLsb' 12 20))

/-- Format J (R78, R82). -/
def RowJ (pattern : Word) (mk : RegNum → BitVec 21 → Instr) : Prop :=
  ∀ w : Word, w &&& 0x0000007F#32 = pattern ↔ decode w = .instr (mk (w.extractLsb' 7 5)
    (w.extractLsb' 31 1 ++ w.extractLsb' 12 8 ++ w.extractLsb' 20 1 ++ w.extractLsb' 21 10 ++ 0#1))

/-- Format I (R74, R79). -/
def RowI (pattern : Word) (mk : RegNum → RegNum → BitVec 12 → Instr) : Prop :=
  ∀ w : Word, w &&& 0x0000707F#32 = pattern ↔
    decode w = .instr (mk (w.extractLsb' 7 5) (w.extractLsb' 15 5) (w.extractLsb' 20 12))

/-- Format I, shift variant (R74, R84). -/
def RowShift (pattern : Word) (mk : RegNum → RegNum → BitVec 5 → Instr) : Prop :=
  ∀ w : Word, w &&& 0xFE00707F#32 = pattern ↔
    decode w = .instr (mk (w.extractLsb' 7 5) (w.extractLsb' 15 5) (w.extractLsb' 20 5))

/-- Format I, CSR variant (R74, R85): the last operand is `rs1` or `zimm`. -/
def RowCsr (pattern : Word) (mk : RegNum → CsrAddr → BitVec 5 → Instr) : Prop :=
  ∀ w : Word, w &&& 0x0000707F#32 = pattern ↔
    decode w = .instr (mk (w.extractLsb' 7 5) (w.extractLsb' 20 12) (w.extractLsb' 15 5))

/-- Format S (R75, R81): base register, data register, offset. -/
def RowS (pattern : Word) (mk : RegNum → RegNum → BitVec 12 → Instr) : Prop :=
  ∀ w : Word, w &&& 0x0000707F#32 = pattern ↔
    decode w = .instr (mk (w.extractLsb' 15 5) (w.extractLsb' 20 5) (w.extractLsb' 25 7 ++ w.extractLsb' 7 5))

/-- Format B (R76, R80). -/
def RowB (pattern : Word) (mk : RegNum → RegNum → BitVec 13 → Instr) : Prop :=
  ∀ w : Word, w &&& 0x0000707F#32 = pattern ↔ decode w = .instr (mk (w.extractLsb' 15 5) (w.extractLsb' 20 5)
    (w.extractLsb' 31 1 ++ w.extractLsb' 7 1 ++ w.extractLsb' 25 6 ++ w.extractLsb' 8 4 ++ 0#1))

/-- Format R (R73). -/
def RowR (pattern : Word) (mk : RegNum → RegNum → RegNum → Instr) : Prop :=
  ∀ w : Word, w &&& 0xFE00707F#32 = pattern ↔
    decode w = .instr (mk (w.extractLsb' 7 5) (w.extractLsb' 15 5) (w.extractLsb' 20 5))

end Sys2Proof.Machine
end

