-- ==== Sys2Proof/Certificates/Slice0/Obligations.lean ====
section
/-! DEFINITION. The statements for the provers. Each quantifies over every state, and so over every MEM_MAP, every CSR_SET
and every register, CSR and memory content (spec/00_scope.md R6). Rules R<n> are those of spec/. The rows `RowU` … `RowR`
say of each instruction which words spell it and where its fields stand; the clauses after them say what it does. -/

open Sys2Proof Sys2Proof.Machine

/-! ## Encoding -/

/-- Decode and encode agree on every instruction that has an encoding, with every operand value (R87, R90). -/
def Obligations.DecodeOfEncode : Prop :=
  ∀ i, wellFormed i = true → ∃ w, encode i = some w ∧ decode w = .instr i

/-- A word has at most one reading, and it is the word of that reading: no bit of it is ignored (R87, R90). -/
def Obligations.EncodeOfDecode : Prop :=
  ∀ w i, decode w = .instr i → wellFormed i = true ∧ encode i = some w

/-- R91: exactly the shift-by-a-constant words with `IR[25] = 1` are illegal, and a step that fetches one faults. -/
def Obligations.InvalidShiftsAreIllegal : Prop :=
  ∀ w : Word,
    (decode w = .illegalInstruction ↔
      (w &&& 0xFE00707F#32 = 0x02001013#32 ∨ w &&& 0xFE00707F#32 = 0x02005013#32 ∨
        w &&& 0xFE00707F#32 = 0x42005013#32)) ∧
    ∀ s : State, fetch s = .next w → decode w = .illegalInstruction → step s = .fault (.illegalInstruction w)

/-- R92: a word that is in no row of the opcode map and is no invalid shift has no meaning, and a step that fetches one is
refused; the classes of words the rule lists are of that kind. Opcode, funct3 and funct7 are the slices of R71. -/
def Obligations.UnlistedWordsAreUnknown : Prop :=
  (∀ w : Word, decode w = .unknownEncoding ↔ decode w ≠ .illegalInstruction ∧
    ∀ r ∈ opcodeTable, w &&& r.mask ≠ r.pattern) ∧
  (∀ (s : State) (w : Word), fetch s = .next w → decode w = .unknownEncoding →
    step s = .refused (.unknownEncoding w)) ∧
  decode 0x00000000#32 = .unknownEncoding ∧ decode 0xFFFFFFFF#32 = .unknownEncoding ∧
  ∀ (w : Word) (opcode : BitVec 7) (funct3 : BitVec 3) (funct7 : BitVec 7),
    w.extractLsb' 0 7 = opcode → w.extractLsb' 12 3 = funct3 → w.extractLsb' 25 7 = funct7 →
    (w.extractLsb' 0 2 ≠ 0b11#2 → decode w = .unknownEncoding) ∧
    (opcode = 0b0001111#7 → decode w = .unknownEncoding) ∧
    (opcode = 0b1110011#7 → funct3 = 0b000#3 ∨ funct3 = 0b100#3 → decode w = .unknownEncoding) ∧
    (opcode = 0b0110011#7 → funct7 = 0b0000001#7 → funct3 ≠ 0b000#3 → decode w = .unknownEncoding) ∧
    (opcode = 0b0110011#7 → funct7 ≠ 0b0000000#7 → funct7 ≠ 0b0100000#7 → funct7 ≠ 0b0000001#7 →
      decode w = .unknownEncoding) ∧
    (opcode = 0b0110011#7 → funct7 = 0b0100000#7 → funct3 ≠ 0b000#3 → funct3 ≠ 0b101#3 →
      decode w = .unknownEncoding) ∧
    (opcode = 0b1100011#7 → funct3 = 0b010#3 ∨ funct3 = 0b011#3 → decode w = .unknownEncoding) ∧
    (opcode = 0b0000011#7 → funct3 = 0b011#3 ∨ funct3 = 0b110#3 ∨ funct3 = 0b111#3 →
      decode w = .unknownEncoding) ∧
    (opcode = 0b0100011#7 → 0b011#3 ≤ funct3 → decode w = .unknownEncoding) ∧
    (opcode = 0b1100111#7 → funct3 ≠ 0b000#3 → decode w = .unknownEncoding) ∧
    (opcode = 0b0010011#7 → funct3 = 0b001#3 → w.extractLsb' 26 6 ≠ 0b000000#6 → decode w = .unknownEncoding) ∧
    (opcode = 0b0010011#7 → funct3 = 0b101#3 → w.extractLsb' 26 6 ≠ 0b000000#6 → w.extractLsb' 26 6 ≠ 0b010000#6 →
      decode w = .unknownEncoding) ∧
    (opcode ≠ 0b0010111#7 → opcode ≠ 0b0110111#7 → opcode ≠ 0b1101111#7 → opcode ≠ 0b1100111#7 →
      opcode ≠ 0b1100011#7 → opcode ≠ 0b0000011#7 → opcode ≠ 0b0100011#7 → opcode ≠ 0b0010011#7 →
      opcode ≠ 0b0110011#7 → opcode ≠ 0b1110011#7 → decode w = .unknownEncoding)

/-- One word per format of the field-extraction table of spec/95_test_vectors.md section 4, and one word of each refused
kind there. -/
def Obligations.WorkedWordsDecode : Prop :=
  decode 0x026283B3#32 = .instr (.mul 7 5 6) ∧
  decode 0xFFC2A383#32 = .instr (.lw 7 5 (BitVec.ofInt 12 (-4))) ∧
  decode 0x8062A023#32 = .instr (.sw 5 6 (BitVec.ofInt 12 (-2048))) ∧
  decode 0xFE029CE3#32 = .instr (.bne 5 0 (BitVec.ofInt 13 (-8))) ∧
  decode 0x89ABD5B7#32 = .instr (.lui 11 0x89ABD#20) ∧
  decode 0xFF5FF06F#32 = .instr (.jal 0 (BitVec.ofInt 21 (-12))) ∧
  decode 0x3408F473#32 = .instr (.csrrci 8 0x340#12 17) ∧
  decode 0x4012D313#32 = .instr (.srai 6 5 1) ∧
  decode 0x0202D313#32 = .illegalInstruction ∧
  decode 0x0000C02A#32 = .unknownEncoding

/-! ## The step -/

/-- R46 and R259: where the four bytes at an aligned, mapped pc hold values no store of the run has written, and the
little-endian word they make decodes to an instruction, the step is that instruction's execution and nothing else. -/
def Obligations.StepRunsDecodedInstruction : Prop :=
  ∀ (s : State) (b0 b1 b2 b3 : Byte) (i : Instr),
    s.pc.toNat % 4 = 0 → AllMapped s s.pc 4 →
    (∀ k < 4, wasStored s (s.pc + BitVec.ofNat 32 k) = false) →
    BytesAre s s.pc [b0, b1, b2, b3] → decode (b3 ++ b2 ++ b1 ++ b0) = .instr i →
    step s = exec i s

/-- R46, R55, R91, R92, in the order (1) to (6) of R225: what a step does when it stops before it executes anything. Of
several bytes without a value the lowest is named (log entry 9). -/
def Obligations.StepStopsBeforeExecution : Prop :=
  ∀ s : State,
    (s.pc.toNat % 4 ≠ 0 → step s = .fault (.misalignedFetch s.pc)) ∧
    (s.pc.toNat % 4 = 0 → ¬ AllMapped s s.pc 4 → step s = .fault (.fetchAccessFault s.pc)) ∧
    (s.pc.toNat % 4 = 0 → AllMapped s s.pc 4 →
      (∀ k < 4, wasStored s (s.pc + BitVec.ofNat 32 k) = true → step s = .refused (.selfModifyingCode s.pc)) ∧
      ((∀ k < 4, wasStored s (s.pc + BitVec.ofNat 32 k) = false) →
        (∀ k < 4, memByte s (s.pc + BitVec.ofNat 32 k) = none →
          (∀ j < k, memByte s (s.pc + BitVec.ofNat 32 j) ≠ none) →
          step s = .fault (.unwrittenRead (s.pc + BitVec.ofNat 32 k))) ∧
        (∀ b0 b1 b2 b3 : Byte, BytesAre s s.pc [b0, b1, b2, b3] →
          (decode (b3 ++ b2 ++ b1 ++ b0) = .illegalInstruction →
            step s = .fault (.illegalInstruction (b3 ++ b2 ++ b1 ++ b0))) ∧
          (decode (b3 ++ b2 ++ b1 ++ b0) = .unknownEncoding →
            step s = .refused (.unknownEncoding (b3 ++ b2 ++ b1 ++ b0))))))

/-- The word the host places is the word the next step decodes and runs, on any state: at a pc that is a multiple of 4
nothing moves the pc (log entry 10). -/
def Obligations.PlacedWordIsFetched : Prop :=
  ∀ (s : State) (w : Word),
    fetch (s.withFetchWord 32 w.toNat) = .next w ∧
    (s.pc.toNat % 4 = 0 → (s.withFetchWord 32 w.toNat).pc = s.pc) ∧
    SameRegs s (s.withFetchWord 32 w.toNat) ∧ SameCsrs s (s.withFetchWord 32 w.toNat) ∧
    (∀ i, decode w = .instr i → step (s.withFetchWord 32 w.toNat) = exec i (s.withFetchWord 32 w.toNat))

/-! ## Upper immediates and jumps -/

/-- AUIPC and LUI (R100, R101). -/
def Obligations.UpperImmediateResults : Prop :=
  RowU 0x00000017#32 .auipc ∧ RowU 0x00000037#32 .lui ∧
  ∀ (s : State) (rd : RegNum) (imm : BitVec 20),
    Completes (.auipc rd imm) s rd (fun v => v.toNat = (s.pc.toNat + imm.toNat * 4096) % 2 ^ 32) ∧
    Completes (.lui rd imm) s rd (fun v => v.toNat = imm.toNat * 4096)

/-- JAL (R110): the link is `pc + 4`, the target is the JAL's own address plus the offset, and a target that is not a
multiple of 4 faults with nothing written. -/
def Obligations.JalLinksAndJumps : Prop :=
  RowJ 0x0000006F#32 .jal ∧
  ∀ (s : State) (rd : RegNum) (off : BitVec 21),
    JumpsTo (.jal rd off) s rd (BitVec.ofInt 32 (s.pc.toNat + off.toInt))

/-- JALR (R111): the target is the plain sum, from `x[rs1]` before the link is written; bit 0 is not cleared. -/
def Obligations.JalrLinksAndJumps : Prop :=
  RowI 0x00000067#32 .jalr ∧
  ∀ (s : State) (rd rs1 : RegNum) (imm : BitVec 12),
    JumpsTo (.jalr rd rs1 imm) s rd (BitVec.ofInt 32 ((readReg s rs1).toNat + imm.toInt))

/-! ## Branches -/

/-- BEQ and BNE (R121, R122). -/
def Obligations.EqualityBranches : Prop :=
  RowB 0x00000063#32 .beq ∧ RowB 0x00001063#32 .bne ∧
  ∀ (s : State) (rs1 rs2 : RegNum) (off : BitVec 13),
    BranchesOn (.beq rs1 rs2 off) s (readReg s rs1 = readReg s rs2) (BitVec.ofInt 32 (s.pc.toNat + off.toInt)) ∧
    BranchesOn (.bne rs1 rs2 off) s (readReg s rs1 ≠ readReg s rs2) (BitVec.ofInt 32 (s.pc.toNat + off.toInt))

/-- BLT and BGE (R123, R124): two's-complement numbers, and equal values take BGE. -/
def Obligations.SignedBranches : Prop :=
  RowB 0x00004063#32 .blt ∧ RowB 0x00005063#32 .bge ∧
  ∀ (s : State) (rs1 rs2 : RegNum) (off : BitVec 13),
    BranchesOn (.blt rs1 rs2 off) s ((readReg s rs1).toInt < (readReg s rs2).toInt)
      (BitVec.ofInt 32 (s.pc.toNat + off.toInt)) ∧
    BranchesOn (.bge rs1 rs2 off) s ((readReg s rs2).toInt ≤ (readReg s rs1).toInt)
      (BitVec.ofInt 32 (s.pc.toNat + off.toInt))

/-- BLTU and BGEU (R125, R126): unsigned numbers, and equal values take BGEU. -/
def Obligations.UnsignedBranches : Prop :=
  RowB 0x00006063#32 .bltu ∧ RowB 0x00007063#32 .bgeu ∧
  ∀ (s : State) (rs1 rs2 : RegNum) (off : BitVec 13),
    BranchesOn (.bltu rs1 rs2 off) s ((readReg s rs1).toNat < (readReg s rs2).toNat)
      (BitVec.ofInt 32 (s.pc.toNat + off.toInt)) ∧
    BranchesOn (.bgeu rs1 rs2 off) s ((readReg s rs2).toNat ≤ (readReg s rs1).toNat)
      (BitVec.ofInt 32 (s.pc.toNat + off.toInt))

/-! ## Loads -/

/-- LB and LBU (R131, R134): any address; the byte there, sign- or zero-extended. -/
def Obligations.ByteLoads : Prop :=
  RowI 0x00000003#32 .lb ∧ RowI 0x00004003#32 .lbu ∧
  ∀ (s : State) (rd rs1 : RegNum) (imm : BitVec 12),
    baseOffset s rs1 imm = BitVec.ofInt 32 ((readReg s rs1).toNat + imm.toInt) ∧
    (∀ b : Byte, AllMapped s (baseOffset s rs1 imm) 1 → BytesAre s (baseOffset s rs1 imm) [b] →
      Completes (.lb rd rs1 imm) s rd (fun v => v.toInt = b.toInt) ∧
      Completes (.lbu rd rs1 imm) s rd (fun v => v.toNat = b.toNat)) ∧
    LoadStops (.lb rd rs1 imm) s (baseOffset s rs1 imm) 1 ∧
    LoadStops (.lbu rd rs1 imm) s (baseOffset s rs1 imm) 1

/-- LH and LHU (R132, R135): the halfword whose low byte is at the address, sign- or zero-extended. -/
def Obligations.HalfwordLoads : Prop :=
  RowI 0x00001003#32 .lh ∧ RowI 0x00005003#32 .lhu ∧
  ∀ (s : State) (rd rs1 : RegNum) (imm : BitVec 12),
    baseOffset s rs1 imm = BitVec.ofInt 32 ((readReg s rs1).toNat + imm.toInt) ∧
    (∀ b0 b1 : Byte, (baseOffset s rs1 imm).toNat % 2 = 0 → AllMapped s (baseOffset s rs1 imm) 2 →
      BytesAre s (baseOffset s rs1 imm) [b0, b1] →
      Completes (.lh rd rs1 imm) s rd (fun v => v.toInt = b1.toInt * 256 + b0.toNat) ∧
      Completes (.lhu rd rs1 imm) s rd (fun v => v.toNat = b1.toNat * 256 + b0.toNat)) ∧
    LoadMisaligned (.lh rd rs1 imm) s (baseOffset s rs1 imm) 2 ∧
    LoadMisaligned (.lhu rd rs1 imm) s (baseOffset s rs1 imm) 2 ∧
    LoadStops (.lh rd rs1 imm) s (baseOffset s rs1 imm) 2 ∧
    LoadStops (.lhu rd rs1 imm) s (baseOffset s rs1 imm) 2

/-- LW (R133): the word whose least significant byte is at the address. -/
def Obligations.WordLoad : Prop :=
  RowI 0x00002003#32 .lw ∧
  ∀ (s : State) (rd rs1 : RegNum) (imm : BitVec 12),
    baseOffset s rs1 imm = BitVec.ofInt 32 ((readReg s rs1).toNat + imm.toInt) ∧
    (∀ b0 b1 b2 b3 : Byte, (baseOffset s rs1 imm).toNat % 4 = 0 → AllMapped s (baseOffset s rs1 imm) 4 →
      BytesAre s (baseOffset s rs1 imm) [b0, b1, b2, b3] →
      Completes (.lw rd rs1 imm) s rd (fun v => v = b3 ++ b2 ++ b1 ++ b0)) ∧
    LoadMisaligned (.lw rd rs1 imm) s (baseOffset s rs1 imm) 4 ∧
    LoadStops (.lw rd rs1 imm) s (baseOffset s rs1 imm) 4

/-- The five loads and LWSP, where the address is aligned and mapped, fault at a byte that holds no value and name the
lowest such byte. That memory holds no value until written or loaded is one of the two treatments R33 allows, and the
name of the byte is the model's (log entries 4 and 9). -/
def Obligations.UnwrittenLoadsFault : Prop :=
  ∀ (s : State) (rd rs1 : RegNum) (imm : BitVec 12) (u : Word),
    LoadUnwritten (.lb rd rs1 imm) s (baseOffset s rs1 imm) 1 ∧
    LoadUnwritten (.lbu rd rs1 imm) s (baseOffset s rs1 imm) 1 ∧
    LoadUnwritten (.lh rd rs1 imm) s (baseOffset s rs1 imm) 2 ∧
    LoadUnwritten (.lhu rd rs1 imm) s (baseOffset s rs1 imm) 2 ∧
    LoadUnwritten (.lw rd rs1 imm) s (baseOffset s rs1 imm) 4 ∧
    LoadUnwritten (.lwsp rd u) s (spOffset s u) 4

/-! ## Stores -/

/-- SB (R141): exactly the low byte of `x[rs2]` changes memory. -/
def Obligations.ByteStore : Prop :=
  RowS 0x00000023#32 .sb ∧
  ∀ (s : State) (rs1 rs2 : RegNum) (imm : BitVec 12),
    baseOffset s rs1 imm = BitVec.ofInt 32 ((readReg s rs1).toNat + imm.toInt) ∧
    (AllMapped s (baseOffset s rs1 imm) 1 →
      StoreCompletes 4 (.sb rs1 rs2 imm) s (baseOffset s rs1 imm) [(readReg s rs2).extractLsb' 0 8]) ∧
    StoreStops (.sb rs1 rs2 imm) s (baseOffset s rs1 imm) 1

/-- SH and SW (R142, R143): exactly the low 2 or 4 bytes of `x[rs2]` change memory, least significant byte at the
address. -/
def Obligations.HalfwordAndWordStores : Prop :=
  RowS 0x00001023#32 .sh ∧ RowS 0x00002023#32 .sw ∧
  ∀ (s : State) (rs1 rs2 : RegNum) (imm : BitVec 12),
    baseOffset s rs1 imm = BitVec.ofInt 32 ((readReg s rs1).toNat + imm.toInt) ∧
    ((baseOffset s rs1 imm).toNat % 2 = 0 → AllMapped s (baseOffset s rs1 imm) 2 →
      StoreCompletes 4 (.sh rs1 rs2 imm) s (baseOffset s rs1 imm)
        [(readReg s rs2).extractLsb' 0 8, (readReg s rs2).extractLsb' 8 8]) ∧
    ((baseOffset s rs1 imm).toNat % 4 = 0 → AllMapped s (baseOffset s rs1 imm) 4 →
      StoreCompletes 4 (.sw rs1 rs2 imm) s (baseOffset s rs1 imm)
        [(readReg s rs2).extractLsb' 0 8, (readReg s rs2).extractLsb' 8 8,
         (readReg s rs2).extractLsb' 16 8, (readReg s rs2).extractLsb' 24 8]) ∧
    StoreMisaligned (.sh rs1 rs2 imm) s (baseOffset s rs1 imm) 2 ∧
    StoreMisaligned (.sw rs1 rs2 imm) s (baseOffset s rs1 imm) 4 ∧
    StoreStops (.sh rs1 rs2 imm) s (baseOffset s rs1 imm) 2 ∧
    StoreStops (.sw rs1 rs2 imm) s (baseOffset s rs1 imm) 4

/-- R43: a mixed-width access sees the bytes where a little-endian word puts them. After SW of `x[rs2]`, each narrower
load of a part of it gives that part. -/
def Obligations.StoredWordReadsBackInParts : Prop :=
  ∀ (s t : State) (rs1 rs2 : RegNum) (imm : BitVec 12), exec (.sw rs1 rs2 imm) s = .next t →
    ∀ (rd r : RegNum) (imm' : BitVec 12) (k : Nat),
      baseOffset t r imm' = baseOffset s rs1 imm + BitVec.ofNat 32 k →
      (k < 4 → Completes (.lbu rd r imm') t rd (fun v => v.toNat = (readReg s rs2).toNat / 256 ^ k % 256)) ∧
      (k = 0 ∨ k = 2 →
        Completes (.lhu rd r imm') t rd (fun v => v.toNat = (readReg s rs2).toNat / 256 ^ k % 65536)) ∧
      (k = 0 → Completes (.lw rd r imm') t rd (fun v => v = readReg s rs2))

/-! ## Register-immediate arithmetic -/

/-- ADDI, SLTI and SLTIU (R150, R152, R153): the sum modulo 2^32; the comparisons of signed numbers, and of unsigned
numbers after sign extension. -/
def Obligations.AddAndCompareImmediate : Prop :=
  RowI 0x00000013#32 .addi ∧ RowI 0x00002013#32 .slti ∧ RowI 0x00003013#32 .sltiu ∧
  ∀ (s : State) (rd rs1 : RegNum) (imm : BitVec 12),
    Completes (.addi rd rs1 imm) s rd (fun v => v = BitVec.ofInt 32 ((readReg s rs1).toInt + imm.toInt)) ∧
    Completes (.slti rd rs1 imm) s rd
      (fun v => v.toNat = if (readReg s rs1).toInt < imm.toInt then 1 else 0) ∧
    Completes (.sltiu rd rs1 imm) s rd
      (fun v => v.toNat = if ((readReg s rs1).toNat : Int) < imm.toInt % 2 ^ 32 then 1 else 0)

/-- XORI, ORI and ANDI (R154, R155, R156), bit by bit; bits 31..12 of the operand are copies of bit 11 of the field. -/
def Obligations.LogicalImmediates : Prop :=
  RowI 0x00004013#32 .xori ∧ RowI 0x00006013#32 .ori ∧ RowI 0x00007013#32 .andi ∧
  ∀ (s : State) (rd rs1 : RegNum) (imm : BitVec 12),
    Completes (.xori rd rs1 imm) s rd
      (fun v => ∀ k < 32, v.getLsbD k = ((readReg s rs1).getLsbD k ^^ imm.getLsbD (min k 11))) ∧
    Completes (.ori rd rs1 imm) s rd
      (fun v => ∀ k < 32, v.getLsbD k = ((readReg s rs1).getLsbD k || imm.getLsbD (min k 11))) ∧
    Completes (.andi rd rs1 imm) s rd
      (fun v => ∀ k < 32, v.getLsbD k = ((readReg s rs1).getLsbD k && imm.getLsbD (min k 11)))

/-- SLLI, SRLI and SRAI (R158, R159, R160), whose words with `IR[25] = 1` are illegal: a product modulo 2^32, and
quotients rounded down of the unsigned and of the signed value. -/
def Obligations.ImmediateShifts : Prop :=
  RowShift 0x00001013#32 .slli ∧ RowShift 0x00005013#32 .srli ∧ RowShift 0x40005013#32 .srai ∧
  (∀ w : Word, w &&& 0xFE00707F#32 = 0x02001013#32 ∨ w &&& 0xFE00707F#32 = 0x02005013#32 ∨
    w &&& 0xFE00707F#32 = 0x42005013#32 → decode w = .illegalInstruction) ∧
  ∀ (s : State) (rd rs1 : RegNum) (shamt : BitVec 5),
    Completes (.slli rd rs1 shamt) s rd
      (fun v => v.toNat = (readReg s rs1).toNat * 2 ^ shamt.toNat % 2 ^ 32) ∧
    Completes (.srli rd rs1 shamt) s rd (fun v => v.toNat = (readReg s rs1).toNat / 2 ^ shamt.toNat) ∧
    Completes (.srai rd rs1 shamt) s rd (fun v => v.toInt = Int.fdiv (readReg s rs1).toInt (2 ^ shamt.toNat))

/-! ## Register-register arithmetic -/

/-- ADD, SUB and MUL (R171, R172, R210): the exact result modulo 2^32. -/
def Obligations.AddSubtractMultiply : Prop :=
  RowR 0x00000033#32 .add ∧ RowR 0x40000033#32 .sub ∧ RowR 0x02000033#32 .mul ∧
  ∀ (s : State) (rd rs1 rs2 : RegNum),
    Completes (.add rd rs1 rs2) s rd
      (fun v => v = BitVec.ofInt 32 ((readReg s rs1).toInt + (readReg s rs2).toInt)) ∧
    Completes (.sub rd rs1 rs2) s rd
      (fun v => v = BitVec.ofInt 32 ((readReg s rs1).toInt - (readReg s rs2).toInt)) ∧
    Completes (.mul rd rs1 rs2) s rd
      (fun v => v.toNat = (readReg s rs1).toNat * (readReg s rs2).toNat % 2 ^ 32 ∧
        v = BitVec.ofInt 32 ((readReg s rs1).toInt * (readReg s rs2).toInt))

/-- SLT and SLTU (R174, R175). -/
def Obligations.CompareRegisters : Prop :=
  RowR 0x00002033#32 .slt ∧ RowR 0x00003033#32 .sltu ∧
  ∀ (s : State) (rd rs1 rs2 : RegNum),
    Completes (.slt rd rs1 rs2) s rd
      (fun v => v.toNat = if (readReg s rs1).toInt < (readReg s rs2).toInt then 1 else 0) ∧
    Completes (.sltu rd rs1 rs2) s rd
      (fun v => v.toNat = if (readReg s rs1).toNat < (readReg s rs2).toNat then 1 else 0)

/-- XOR, OR and AND (R176, R179, R180), bit by bit. -/
def Obligations.LogicalRegisters : Prop :=
  RowR 0x00004033#32 .xor ∧ RowR 0x00006033#32 .or ∧ RowR 0x00007033#32 .and ∧
  ∀ (s : State) (rd rs1 rs2 : RegNum),
    Completes (.xor rd rs1 rs2) s rd
      (fun v => ∀ k < 32, v.getLsbD k = ((readReg s rs1).getLsbD k ^^ (readReg s rs2).getLsbD k)) ∧
    Completes (.or rd rs1 rs2) s rd
      (fun v => ∀ k < 32, v.getLsbD k = ((readReg s rs1).getLsbD k || (readReg s rs2).getLsbD k)) ∧
    Completes (.and rd rs1 rs2) s rd
      (fun v => ∀ k < 32, v.getLsbD k = ((readReg s rs1).getLsbD k && (readReg s rs2).getLsbD k))

/-- SLL, SRL and SRA (R173, R177, R178): as the shifts by a constant, by the low five bits of `x[rs2]`. -/
def Obligations.RegisterShifts : Prop :=
  RowR 0x00001033#32 .sll ∧ RowR 0x00005033#32 .srl ∧ RowR 0x40005033#32 .sra ∧
  ∀ (s : State) (rd rs1 rs2 : RegNum),
    Completes (.sll rd rs1 rs2) s rd
      (fun v => v.toNat = (readReg s rs1).toNat * 2 ^ ((readReg s rs2).toNat % 32) % 2 ^ 32) ∧
    Completes (.srl rd rs1 rs2) s rd
      (fun v => v.toNat = (readReg s rs1).toNat / 2 ^ ((readReg s rs2).toNat % 32)) ∧
    Completes (.sra rd rs1 rs2) s rd
      (fun v => v.toInt = Int.fdiv (readReg s rs1).toInt (2 ^ ((readReg s rs2).toNat % 32)))

/-! ## CSR access -/

/-- CSRRW, CSRRS and CSRRC (R191, R192, R193): the old value to `rd`, the new value from the old value and `x[rs1]` as
both were before the instruction, also when `rd` is `rs1` or x[0]. -/
def Obligations.CsrRegisterForms : Prop :=
  RowCsr 0x00001073#32 .csrrw ∧ RowCsr 0x00002073#32 .csrrs ∧ RowCsr 0x00003073#32 .csrrc ∧
  ∀ (s : State) (rd rs1 : RegNum) (a : CsrAddr),
    (csrImplemented s a = true →
      CsrCompletes (.csrrw rd a rs1) s rd a (fun v => v = readReg s rs1) ∧
      CsrCompletes (.csrrs rd a rs1) s rd a
        (fun v => ∀ k < 32, v.getLsbD k = ((readCsr s a).getLsbD k || (readReg s rs1).getLsbD k)) ∧
      CsrCompletes (.csrrc rd a rs1) s rd a
        (fun v => ∀ k < 32, v.getLsbD k = ((readCsr s a).getLsbD k && !(readReg s rs1).getLsbD k))) ∧
    (csrImplemented s a = false →
      exec (.csrrw rd a rs1) s = .fault (.csrNotImplemented a) ∧
      exec (.csrrs rd a rs1) s = .fault (.csrNotImplemented a) ∧
      exec (.csrrc rd a rs1) s = .fault (.csrNotImplemented a))

/-- CSRRWI, CSRRSI and CSRRCI (R194, R195, R196): as the register forms, with the 5-bit field; CSRRSI and CSRRCI keep bits
31..5 of the cell. -/
def Obligations.CsrImmediateForms : Prop :=
  RowCsr 0x00005073#32 .csrrwi ∧ RowCsr 0x00006073#32 .csrrsi ∧ RowCsr 0x00007073#32 .csrrci ∧
  ∀ (s : State) (rd : RegNum) (a : CsrAddr) (zimm : BitVec 5),
    (csrImplemented s a = true →
      CsrCompletes (.csrrwi rd a zimm) s rd a (fun v => v.toNat = zimm.toNat) ∧
      CsrCompletes (.csrrsi rd a zimm) s rd a
        (fun v => ∀ k < 32, v.getLsbD k = ((readCsr s a).getLsbD k || (decide (k < 5) && zimm.getLsbD k))) ∧
      CsrCompletes (.csrrci rd a zimm) s rd a
        (fun v => ∀ k < 32, v.getLsbD k = ((readCsr s a).getLsbD k && !(decide (k < 5) && zimm.getLsbD k)))) ∧
    (csrImplemented s a = false →
      exec (.csrrwi rd a zimm) s = .fault (.csrNotImplemented a) ∧
      exec (.csrrsi rd a zimm) s = .fault (.csrNotImplemented a) ∧
      exec (.csrrci rd a zimm) s = .fault (.csrNotImplemented a))

/-- R28: a CSR instruction that names an address outside CSR_SET faults with CsrNotImplemented, whatever its other
operands; no other instruction and no address inside CSR_SET does. -/
def Obligations.CsrOutsideSetFaults : Prop :=
  ∀ (i : Instr) (s : State) (a : CsrAddr),
    exec i s = .fault (.csrNotImplemented a) ↔ csrOperand i = some a ∧ csrImplemented s a = false

/-! ## SWSP and LWSP -/

/-- SWSP (R215, R216): no word spells it; it stores the data register's word at x[2] plus the immediate and moves the pc
by the unknown length; SP keeps its value; it faults as SW does. -/
def Obligations.SwspStoresAtSp : Prop :=
  (∀ (w : Word) (r : RegNum) (u : Word), decode w ≠ .instr (.swsp r u)) ∧
  ∀ (s : State) (r : RegNum) (u : Word),
    spOffset s u = readReg s 2#5 + u ∧
    ((spOffset s u).toNat % 4 = 0 → AllMapped s (spOffset s u) 4 →
      StoreCompletes Config.ilenSp (.swsp r u) s (spOffset s u)
        [(readReg s r).extractLsb' 0 8, (readReg s r).extractLsb' 8 8,
         (readReg s r).extractLsb' 16 8, (readReg s r).extractLsb' 24 8]) ∧
    StoreMisaligned (.swsp r u) s (spOffset s u) 4 ∧
    StoreStops (.swsp r u) s (spOffset s u) 4

/-- LWSP (R215, R217): no word spells it; it loads the word at x[2] plus the immediate into `rd`; it faults as LW does. -/
def Obligations.LwspLoadsAtSp : Prop :=
  (∀ (w : Word) (rd : RegNum) (u : Word), decode w ≠ .instr (.lwsp rd u)) ∧
  ∀ (s : State) (rd : RegNum) (u : Word),
    spOffset s u = readReg s 2#5 + u ∧
    (∀ b0 b1 b2 b3 : Byte, (spOffset s u).toNat % 4 = 0 → AllMapped s (spOffset s u) 4 →
      BytesAre s (spOffset s u) [b0, b1, b2, b3] →
      CompletesBy Config.ilenSp (.lwsp rd u) s rd (fun v => v = b3 ++ b2 ++ b1 ++ b0)) ∧
    LoadMisaligned (.lwsp rd u) s (spOffset s u) 4 ∧
    LoadStops (.lwsp rd u) s (spOffset s u) 4

/-- R218 (an inference of the spec): for an immediate in 0 .. 2047, SW and LW with base x[2] do to everything but the pc
what SWSP and LWSP do. -/
def Obligations.SwAndLwReplaceSwspAndLwsp : Prop :=
  ∀ (s : State) (r : RegNum) (imm : BitVec 12), imm.toNat < 2048 →
    (∀ t, exec (.swsp r (imm.setWidth 32)) s = .next t → exec (.sw 2#5 r imm) s = .next (t.setPc (s.pc + 4))) ∧
    (∀ t, exec (.lwsp r (imm.setWidth 32)) s = .next t → exec (.lw r 2#5 imm) s = .next (t.setPc (s.pc + 4))) ∧
    (∀ f, exec (.swsp r (imm.setWidth 32)) s = .fault f ↔ exec (.sw 2#5 r imm) s = .fault f) ∧
    (∀ f, exec (.lwsp r (imm.setWidth 32)) s = .fault f ↔ exec (.lw r 2#5 imm) s = .fault f)

/-! ## Rules over all instructions -/

/-- R21: x[0] reads as 0 in every state, a write to it changes nothing, and a write to another register is read back by
that register alone. -/
def Obligations.RegisterZeroAndWriteback : Prop :=
  ∀ (s : State) (r q : RegNum) (v : Word),
    readReg s 0#5 = 0#32 ∧ writeReg s 0#5 v = s ∧
    readReg (writeReg s r v) q = (if q = r ∧ r ≠ 0#5 then v else readReg s q)

/-- R23: no instruction writes a general register other than its `rd`, and branches and stores write none. -/
def Obligations.OnlyTheDestinationRegisterChanges : Prop :=
  ∀ (i : Instr) (s t : State), exec i s = .next t → ∀ r, destReg i ≠ some r → readReg t r = readReg s r

/-- R237: a CSR cell changes only when a CSR instruction names it. -/
def Obligations.OnlyTheNamedCsrChanges : Prop :=
  ∀ (i : Instr) (s t : State), exec i s = .next t → ∀ a, csrOperand i ≠ some a → readCsr t a = readCsr s a

/-- R40, R42: a byte of memory changes only when a store names it, and stores are SB, SH, SW and SWSP; a byte becomes
recorded as stored exactly then. -/
def Obligations.OnlyTheStoredBytesChange : Prop :=
  ∀ (i : Instr) (s t : State), exec i s = .next t → ∀ a : Word,
    (∀ addr n, storeTarget s i = some (addr, n) → n ≤ (a - addr).toNat) →
    memByte t a = memByte s a ∧ wasStored t a = wasStored s a

/-- R25: an instruction that is neither a jump nor a branch, and is not SWSP or LWSP, goes on to `pc + 4` modulo 2^32. -/
def Obligations.SequentialPc : Prop :=
  ∀ (i : Instr) (s t : State), transfersControl i = false → hasEncoding i = true → exec i s = .next t →
    t.pc.toNat = (s.pc.toNat + 4) % 2 ^ 32

/-- Each instruction raises only the faults whose "By" column in the table of R222 names it, and UnwrittenRead only where
it is a load: the column gives UnwrittenRead to any instruction that reads state, and that registers and CSR cells never
raise it is the model's choice (DESIGN CHOICE, log entries 1 and 3). No instruction's execution is refused; every refusal
of a step is UnknownEncoding or SelfModifyingCode (R223). -/
def Obligations.OnlyTheTableFaults : Prop :=
  (∀ (i : Instr) (s : State) (f : Fault), exec i s = .fault f → mayRaise i f = true) ∧
  (∀ (i : Instr) (s : State) (r : Refusal), exec i s ≠ .refused r) ∧
  (∀ (s : State) (r : Refusal), step s = .refused r →
    r = .selfModifyingCode s.pc ∨ ∃ ir, fetch s = .next ir ∧ decode ir = .unknownEncoding ∧ r = .unknownEncoding ir)

/-- What an instruction that names no CSR does, faults included, does not depend on what the CSR cells hold. -/
def Obligations.CsrContentsMatterOnlyToCsrInstructions : Prop :=
  ∀ (i : Instr) (s : State) (c : CsrFile), csrOperand i = none →
    (∀ t, exec i s = .next t → exec i (s.setCsrs c) = .next (t.setCsrs c)) ∧
    (∀ f, exec i s = .fault f → exec i (s.setCsrs c) = .fault f)

/-- R102 (an inference of the spec): LUI and then ADDI build any constant. -/
def Obligations.LuiThenAddiBuildsAnyConstant : Prop :=
  ∀ (s : State) (rd : RegNum) (K : Word), rd ≠ 0#5 →
    ∃ t u, exec (.lui rd ((K - (K.extractLsb' 0 12).signExtend 32).extractLsb' 12 20)) s = .next t ∧
      exec (.addi rd rd (K.extractLsb' 0 12)) t = .next u ∧ readReg u rd = K ∧ OnlyRd s u rd

/-! ## The state and its runs -/

/-- R253: the launch state. The pc is RESET_PC, x[0] is 0, every other register, every CSR cell and every byte is what the
launch gives, and no byte counts as stored. -/
def Obligations.LaunchStateHoldsWhatItIsGiven : Prop :=
  ∀ (p : Config.Platform) (resetPc : Word) (regs : Vector Word 32) (csrs : CsrFile) (image : Memory),
    (State.launch p resetPc regs csrs image).pc = resetPc ∧
    readReg (State.launch p resetPc regs csrs image) 0#5 = 0#32 ∧
    (∀ r : RegNum, r ≠ 0#5 → readReg (State.launch p resetPc regs csrs image) r = regs[r.toNat]) ∧
    (∀ a, readCsr (State.launch p resetPc regs csrs image) a = (sparseLookup csrs a.toNat).getD Config.unlistedCsr) ∧
    (∀ a, memByte (State.launch p resetPc regs csrs image) a = sparseLookup image a.toNat) ∧
    (∀ a, wasStored (State.launch p resetPc regs csrs image) a = false)

/-- The model's reset state meets the invariant. Its register, CSR, pc, MEM_MAP and CSR_SET values are the model's choice
(log entries 1 to 6). -/
def Obligations.ResetMeetsTheInvariant : Prop := Inv State.reset

/-- Every step keeps the invariant: canonical memory, CSR file and stored set, stored bytes mapped and holding values,
listed CSRs implemented, the slot of x[0] at 0, the pc a multiple of 4 (R25). -/
def Obligations.StepKeepsTheInvariant : Prop :=
  ∀ s t : State, Inv s → step s = .next t → Inv t

/-- R41, R28: MEM_MAP and CSR_SET never change, in any step and any run. -/
def Obligations.ParametersNeverChange : Prop :=
  (∀ s t : State, step s = .next t → t.platform = s.platform) ∧
  ∀ (n : Nat) (s t : State), core.run n s = .next t → t.platform = s.platform

/-- R55: the program text is fixed at launch. After any number of steps, a byte not recorded as stored holds what it held
at the start and was not recorded then; so, where the next step fetches a word, the four bytes it fetches are bytes of
the start. -/
def Obligations.ProgramTextIsFixed : Prop :=
  ∀ (n : Nat) (s t : State), core.run n s = .next t →
    (∀ a, wasStored t a = false → memByte t a = memByte s a ∧ wasStored s a = false) ∧
    (∀ ir, fetch t = .next ir → ∃ b0 b1 b2 b3 : Byte, BytesAre s t.pc [b0, b1, b2, b3] ∧ ir = b3 ++ b2 ++ b1 ++ b0)

/-- R258: at a self-jump (`JAL x0, 0`) a step changes nothing, so any further number of steps leaves the end state, and a
run with that END_OF_RUN convention is finished there whatever its bound. -/
def Obligations.SelfJumpChangesNothing : Prop :=
  ∀ s : State, atSelfJump s = true →
    step s = .next s ∧ (∀ n, core.run n s = .next s) ∧ ∀ n, runUntil atSelfJump n s = .finished s

/-- R55, R140: a store of a word that lies over the next instruction's address makes the next step refuse. -/
def Obligations.StoreOverNextInstructionIsRefused : Prop :=
  ∀ (s t : State) (rs1 rs2 : RegNum) (imm : BitVec 12), s.pc.toNat % 4 = 0 → exec (.sw rs1 rs2 imm) s = .next t →
    baseOffset s rs1 imm = s.pc + 4 → step t = .refused (.selfModifyingCode t.pc)
end

