-- ==== Sys2Proof/Laws/State.lean ====
section
/-! SUPPORT. Each field after each update, and updates that cancel. -/

namespace Sys2Proof.Machine

variable (s : State)

@[simp] theorem platform_setPlatform (v : Config.Platform) : (s.setPlatform v).platform = v := rfl

@[simp] theorem regs_setPlatform (v : Config.Platform) : (s.setPlatform v).regs = s.regs := rfl

@[simp] theorem pc_setPlatform (v : Config.Platform) : (s.setPlatform v).pc = s.pc := rfl

@[simp] theorem csrs_setPlatform (v : Config.Platform) : (s.setPlatform v).csrs = s.csrs := rfl

@[simp] theorem mem_setPlatform (v : Config.Platform) : (s.setPlatform v).mem = s.mem := rfl

@[simp] theorem stored_setPlatform (v : Config.Platform) : (s.setPlatform v).stored = s.stored := rfl

@[simp] theorem platform_setRegs (v : Vector Word 32) : (s.setRegs v).platform = s.platform := rfl

@[simp] theorem regs_setRegs (v : Vector Word 32) : (s.setRegs v).regs = v := rfl

@[simp] theorem pc_setRegs (v : Vector Word 32) : (s.setRegs v).pc = s.pc := rfl

@[simp] theorem csrs_setRegs (v : Vector Word 32) : (s.setRegs v).csrs = s.csrs := rfl

@[simp] theorem mem_setRegs (v : Vector Word 32) : (s.setRegs v).mem = s.mem := rfl

@[simp] theorem stored_setRegs (v : Vector Word 32) : (s.setRegs v).stored = s.stored := rfl

@[simp] theorem platform_setPc (v : Word) : (s.setPc v).platform = s.platform := rfl

@[simp] theorem regs_setPc (v : Word) : (s.setPc v).regs = s.regs := rfl

@[simp] theorem pc_setPc (v : Word) : (s.setPc v).pc = v := rfl

@[simp] theorem csrs_setPc (v : Word) : (s.setPc v).csrs = s.csrs := rfl

@[simp] theorem mem_setPc (v : Word) : (s.setPc v).mem = s.mem := rfl

@[simp] theorem stored_setPc (v : Word) : (s.setPc v).stored = s.stored := rfl

@[simp] theorem platform_setCsrs (v : CsrFile) : (s.setCsrs v).platform = s.platform := rfl

@[simp] theorem regs_setCsrs (v : CsrFile) : (s.setCsrs v).regs = s.regs := rfl

@[simp] theorem pc_setCsrs (v : CsrFile) : (s.setCsrs v).pc = s.pc := rfl

@[simp] theorem csrs_setCsrs (v : CsrFile) : (s.setCsrs v).csrs = v := rfl

@[simp] theorem mem_setCsrs (v : CsrFile) : (s.setCsrs v).mem = s.mem := rfl

@[simp] theorem stored_setCsrs (v : CsrFile) : (s.setCsrs v).stored = s.stored := rfl

@[simp] theorem platform_setMem (v : Memory) : (s.setMem v).platform = s.platform := rfl

@[simp] theorem regs_setMem (v : Memory) : (s.setMem v).regs = s.regs := rfl

@[simp] theorem pc_setMem (v : Memory) : (s.setMem v).pc = s.pc := rfl

@[simp] theorem csrs_setMem (v : Memory) : (s.setMem v).csrs = s.csrs := rfl

@[simp] theorem mem_setMem (v : Memory) : (s.setMem v).mem = v := rfl

@[simp] theorem stored_setMem (v : Memory) : (s.setMem v).stored = s.stored := rfl

@[simp] theorem platform_setStored (v : AddrSet) : (s.setStored v).platform = s.platform := rfl

@[simp] theorem regs_setStored (v : AddrSet) : (s.setStored v).regs = s.regs := rfl

@[simp] theorem pc_setStored (v : AddrSet) : (s.setStored v).pc = s.pc := rfl

@[simp] theorem csrs_setStored (v : AddrSet) : (s.setStored v).csrs = s.csrs := rfl

@[simp] theorem mem_setStored (v : AddrSet) : (s.setStored v).mem = s.mem := rfl

@[simp] theorem stored_setStored (v : AddrSet) : (s.setStored v).stored = v := rfl

@[simp] theorem setPlatform_setPlatform (v w : Config.Platform) : (s.setPlatform v).setPlatform w = s.setPlatform w := rfl

@[simp] theorem setPlatform_self : s.setPlatform s.platform = s := rfl

@[simp] theorem setRegs_setRegs (v w : Vector Word 32) : (s.setRegs v).setRegs w = s.setRegs w := rfl

@[simp] theorem setRegs_self : s.setRegs s.regs = s := rfl

@[simp] theorem setPc_setPc (v w : Word) : (s.setPc v).setPc w = s.setPc w := rfl

@[simp] theorem setPc_self : s.setPc s.pc = s := rfl

@[simp] theorem setCsrs_setCsrs (v w : CsrFile) : (s.setCsrs v).setCsrs w = s.setCsrs w := rfl

@[simp] theorem setCsrs_self : s.setCsrs s.csrs = s := rfl

@[simp] theorem setMem_setMem (v w : Memory) : (s.setMem v).setMem w = s.setMem w := rfl

@[simp] theorem setMem_self : s.setMem s.mem = s := rfl

@[simp] theorem setStored_setStored (v w : AddrSet) : (s.setStored v).setStored w = s.setStored w := rfl

@[simp] theorem setStored_self : s.setStored s.stored = s := rfl

@[simp] theorem stored_reset : State.reset.stored = [] := rfl

@[simp] theorem mem_reset : State.reset.mem = [] := rfl

@[simp] theorem csrs_reset : State.reset.csrs = [] := rfl

/-- Two states with equal fields are equal. -/
theorem state_ext {s t : State} (hp : s.platform = t.platform) (hr : s.regs = t.regs) (hpc : s.pc = t.pc)
    (hc : s.csrs = t.csrs) (hm : s.mem = t.mem) (hs : s.stored = t.stored) : s = t := by
  cases s; cases t; simp_all

end Sys2Proof.Machine
end

