-- ==== Sys2Proof/Laws/Registers.lean ====
section
/-! SUPPORT. General registers: what reading gives after each update, and what writing one leaves alone. -/

namespace Sys2Proof.Machine

variable (s : State)

@[simp] theorem readReg_zero : readReg s 0#5 = 0#32 := rfl

@[simp] theorem writeReg_zero (v : Word) : writeReg s 0#5 v = s := rfl

theorem readReg_of_ne {r : RegNum} (h : r ≠ 0#5) : readReg s r = s.regs[r.toNat] := by
  simp [readReg, h]

/-- Reading a register after writing one. -/
theorem readReg_writeReg (r q : RegNum) (v : Word) :
    readReg (writeReg s r v) q = if q = r ∧ r ≠ 0#5 then v else readReg s q := by
  unfold readReg writeReg
  by_cases hr : r = 0#5
  · simp [hr]
  · by_cases hq : q = 0#5
    · subst hq; simp; tauto
    · by_cases h : q = r
      · subst h; simp [hq]
      · have : r.toNat ≠ q.toNat := fun e => h (BitVec.eq_of_toNat_eq e.symm)
        simp [hr, hq, h, this]

@[simp] theorem platform_writeReg (r : RegNum) (v : Word) : (writeReg s r v).platform = s.platform := by
  unfold writeReg; split <;> rfl

@[simp] theorem pc_writeReg (r : RegNum) (v : Word) : (writeReg s r v).pc = s.pc := by
  unfold writeReg; split <;> rfl

@[simp] theorem csrs_writeReg (r : RegNum) (v : Word) : (writeReg s r v).csrs = s.csrs := by
  unfold writeReg; split <;> rfl

@[simp] theorem mem_writeReg (r : RegNum) (v : Word) : (writeReg s r v).mem = s.mem := by
  unfold writeReg; split <;> rfl

@[simp] theorem stored_writeReg (r : RegNum) (v : Word) : (writeReg s r v).stored = s.stored := by
  unfold writeReg; split <;> rfl

/-- The slot of x[0] is never written. -/
@[simp] theorem zeroSlot_writeReg (r : RegNum) (v : Word) : (writeReg s r v).regs[0] = s.regs[0] := by
  unfold writeReg
  split
  · rfl
  · rename_i h
    have : r.toNat ≠ 0 := fun e => h (BitVec.eq_of_toNat_eq e)
    simp [this]

/-- Reading a register looks at the registers only. -/
theorem readReg_congr {s t : State} (h : t.regs = s.regs) (r : RegNum) : readReg t r = readReg s r := by
  simp [readReg, h]

@[simp] theorem readReg_setPlatform (v : Config.Platform) (r : RegNum) : readReg (s.setPlatform v) r = readReg s r := rfl

@[simp] theorem readReg_setPc (v : Word) (r : RegNum) : readReg (s.setPc v) r = readReg s r := rfl

@[simp] theorem readReg_setCsrs (v : CsrFile) (r : RegNum) : readReg (s.setCsrs v) r = readReg s r := rfl

@[simp] theorem readReg_setMem (v : Memory) (r : RegNum) : readReg (s.setMem v) r = readReg s r := rfl

@[simp] theorem readReg_setStored (v : AddrSet) (r : RegNum) : readReg (s.setStored v) r = readReg s r := rfl

@[simp] theorem readReg_advanceBy (len : Word) (r : RegNum) : readReg (advanceBy len s) r = readReg s r := rfl

end Sys2Proof.Machine
end

