-- ==== Sys2Proof/Laws/Sparse.lean ====
section
/-! SUPPORT. The sparse maps and sets: reading after an update, and the canonical form is kept. -/

namespace Sys2Proof.Machine

variable {α : Type}

@[simp] theorem sparseLookup_nil (a : Nat) : sparseLookup ([] : List (Nat × α)) a = none := rfl

theorem sparseLookup_cons (k : Nat) (v : α) (m : List (Nat × α)) (a : Nat) :
    sparseLookup ((k, v) :: m) a = if k = a then some v else sparseLookup m a := rfl

/-- Reading a map after listing a value: that value at its key, the old one elsewhere. -/
theorem sparseLookup_insert (m : List (Nat × α)) (a : Nat) (x : α) (b : Nat) :
    sparseLookup (sparseInsert m a x) b = if a = b then some x else sparseLookup m b := by
  induction m with
  | nil => rfl
  | cons e m ih =>
    obtain ⟨k, v⟩ := e
    simp only [sparseInsert]
    split_ifs with h1 h2 h3 h4 <;> simp only [sparseLookup_cons, ih] <;> split_ifs <;> first | rfl | omega

/-- Reading a map after taking a key out of it: nothing at the key, the old value elsewhere. -/
theorem sparseLookup_erase (m : List (Nat × α)) (a b : Nat) :
    sparseLookup (sparseErase m a) b = if a = b then none else sparseLookup m b := by
  induction m with
  | nil => simp [sparseErase]
  | cons e m ih =>
    obtain ⟨k, v⟩ := e
    simp only [sparseErase] at ih ⊢
    by_cases hk : k = a
    · simp only [List.filter, hk, ne_eq, not_true_eq_false, decide_false, ih, sparseLookup_cons]
      split_ifs <;> rfl
    · simp only [List.filter, ne_eq, hk, not_false_eq_true, decide_true, sparseLookup_cons, ih]
      split_ifs <;> first | rfl | omega

theorem rising_cons (a : Nat) (m : List Nat) :
    rising (a :: m) = true ↔ (∀ b ∈ m, a < b) ∧ rising m = true := by
  simp [rising]

/-- The entries of a map after listing a value. -/
theorem mem_sparseInsert {m : List (Nat × α)} {a : Nat} {x : α} {e : Nat × α} (h : e ∈ sparseInsert m a x) :
    e = (a, x) ∨ e ∈ m := by
  induction m with
  | nil => simpa [sparseInsert] using h
  | cons d m ih =>
    obtain ⟨k, v⟩ := d
    simp only [sparseInsert] at h
    split_ifs at h with h1 h2
    · simpa using h
    · rcases List.mem_cons.mp h with h | h
      · exact .inl h
      · exact .inr (List.mem_cons_of_mem _ h)
    · rcases List.mem_cons.mp h with h | h
      · exact .inr (h ▸ List.mem_cons_self)
      · exact (ih h).imp_right (List.mem_cons_of_mem _)

theorem rising_sparseInsert (m : List (Nat × α)) (a : Nat) (x : α) (h : rising (m.map Prod.fst) = true) :
    rising ((sparseInsert m a x).map Prod.fst) = true := by
  induction m with
  | nil => rfl
  | cons e m ih =>
    obtain ⟨k, v⟩ := e
    rw [List.map_cons, rising_cons] at h
    obtain ⟨hlt, hm⟩ := h
    simp only [sparseInsert]
    split_ifs with h1 h2
    · simp only [List.map_cons, rising_cons, List.mem_cons, List.mem_map] at *
      refine ⟨?_, hlt, hm⟩
      rintro b (rfl | ⟨e, he, rfl⟩)
      · exact h1
      · exact h1.trans (hlt _ ⟨e, he, rfl⟩)
    · subst h2
      simp only [List.map_cons, rising_cons]
      exact ⟨hlt, hm⟩
    · rw [List.map_cons, rising_cons]
      refine ⟨?_, ih hm⟩
      intro b hb
      obtain ⟨e, he, rfl⟩ := List.mem_map.mp hb
      rcases mem_sparseInsert he with rfl | he
      · show k < a; omega
      · exact hlt _ (List.mem_map_of_mem he)

theorem rising_filter (m : List Nat) (p : Nat → Bool) (h : rising m = true) : rising (m.filter p) = true := by
  induction m with
  | nil => rfl
  | cons a m ih =>
    obtain ⟨hlt, hm⟩ := (rising_cons a m).mp h
    by_cases hp : p a
    · rw [List.filter_cons_of_pos hp, rising_cons]
      exact ⟨fun b hb => hlt b (List.mem_filter.mp hb).1, ih hm⟩
    · rw [List.filter_cons_of_neg hp]
      exact ih hm

theorem rising_sparseErase (m : List (Nat × α)) (a : Nat) (h : rising (m.map Prod.fst) = true) :
    rising ((sparseErase m a).map Prod.fst) = true := by
  have : (sparseErase m a).map Prod.fst = (m.map Prod.fst).filter (fun k => k ≠ a) := by
    induction m with
    | nil => rfl
    | cons e m ih =>
      have ih := ih ((rising_cons _ _).mp h).2
      by_cases hk : e.1 = a <;> simp_all [sparseErase]
  rw [this]
  exact rising_filter _ _ h

/-- The members of a set after adding one. -/
theorem mem_addrInsert (m : AddrSet) (a b : Nat) : b ∈ addrInsert m a ↔ b = a ∨ b ∈ m := by
  induction m with
  | nil => simp [addrInsert]
  | cons k m ih =>
    simp only [addrInsert]
    split_ifs with h1 h2
    · simp
    · subst h2; simp
    · simp only [List.mem_cons, ih]; tauto

theorem rising_addrInsert (m : AddrSet) (a : Nat) (h : rising m = true) : rising (addrInsert m a) = true := by
  induction m with
  | nil => rfl
  | cons k m ih =>
    obtain ⟨hlt, hm⟩ := (rising_cons k m).mp h
    simp only [addrInsert]
    split_ifs with h1 h2
    · rw [rising_cons]
      refine ⟨fun b hb => ?_, h⟩
      rcases List.mem_cons.mp hb with rfl | hb
      · exact h1
      · exact h1.trans (hlt b hb)
    · exact h
    · rw [rising_cons]
      refine ⟨fun b hb => ?_, ih hm⟩
      rcases (mem_addrInsert m a b).mp hb with rfl | hb
      · omega
      · exact hlt b hb

/-- Listing a byte keeps memory canonical. -/
theorem memory_wf_insert {m : Memory} (h : Memory.wf m = true) {a : Nat} (ha : a < 2 ^ 32) (b : Byte) :
    Memory.wf (sparseInsert m a b) = true := by
  simp only [Memory.wf, Bool.and_eq_true, List.all_eq_true, decide_eq_true_eq] at *
  refine ⟨rising_sparseInsert m a b h.1, fun e he => ?_⟩
  rcases mem_sparseInsert he with rfl | he
  · exact ha
  · exact h.2 e he

/-- Listing a value that is not the unlisted one keeps the CSR file canonical. -/
theorem csrFile_wf_insert {m : CsrFile} (h : CsrFile.wf m = true) {a : Nat} (ha : a < 2 ^ 12) {v : Word}
    (hv : v ≠ Config.unlistedCsr) : CsrFile.wf (sparseInsert m a v) = true := by
  simp only [CsrFile.wf, Bool.and_eq_true, List.all_eq_true, decide_eq_true_eq] at *
  refine ⟨rising_sparseInsert m a v h.1, fun e he => ?_⟩
  rcases mem_sparseInsert he with rfl | he
  · exact ⟨ha, hv⟩
  · exact h.2 e he

/-- Taking a cell out keeps the CSR file canonical. -/
theorem csrFile_wf_erase {m : CsrFile} (h : CsrFile.wf m = true) (a : Nat) : CsrFile.wf (sparseErase m a) = true := by
  simp only [CsrFile.wf, Bool.and_eq_true, List.all_eq_true] at *
  exact ⟨rising_sparseErase m a h.1, fun e he => h.2 e (List.mem_filter.mp he).1⟩

end Sys2Proof.Machine
end

