-- ==== Sys2Proof/Laws/Csr.lean ====
section
/-! SUPPORT. The CSR file: what reading gives after each update, and what writing a cell leaves alone. -/

namespace Sys2Proof.Machine

variable (s : State)

/-- Reading a CSR after writing one. -/
theorem readCsr_writeCsr (a c : CsrAddr) (v : Word) :
    readCsr (writeCsr s a v) c = if c = a then v else readCsr s c := by
  have key : (a.toNat = c.toNat) ↔ c = a := ⟨fun e => (BitVec.eq_of_toNat_eq e).symm, fun e => e ▸ rfl⟩
  unfold readCsr writeCsr
  by_cases hv : v = Config.unlistedCsr
  · simp only [hv, if_true, csrs_setCsrs, sparseLookup_erase, key]
    split_ifs <;> rfl
  · simp only [hv, if_false, csrs_setCsrs, sparseLookup_insert, key]
    split_ifs <;> rfl

@[simp] theorem platform_writeCsr (a : CsrAddr) (v : Word) : (writeCsr s a v).platform = s.platform := by
  unfold writeCsr; split <;> rfl

@[simp] theorem regs_writeCsr (a : CsrAddr) (v : Word) : (writeCsr s a v).regs = s.regs := by
  unfold writeCsr; split <;> rfl

@[simp] theorem pc_writeCsr (a : CsrAddr) (v : Word) : (writeCsr s a v).pc = s.pc := by
  unfold writeCsr; split <;> rfl

@[simp] theorem mem_writeCsr (a : CsrAddr) (v : Word) : (writeCsr s a v).mem = s.mem := by
  unfold writeCsr; split <;> rfl

@[simp] theorem stored_writeCsr (a : CsrAddr) (v : Word) : (writeCsr s a v).stored = s.stored := by
  unfold writeCsr; split <;> rfl

@[simp] theorem readReg_writeCsr (a : CsrAddr) (v : Word) (r : RegNum) : readReg (writeCsr s a v) r = readReg s r :=
  readReg_congr (regs_writeCsr s a v) r

/-- Writing a cell keeps the CSR file canonical. -/
theorem csrFile_wf_writeCsr (h : CsrFile.wf s.csrs = true) (a : CsrAddr) (v : Word) :
    CsrFile.wf (writeCsr s a v).csrs = true := by
  unfold writeCsr
  split
  · exact csrFile_wf_erase h _
  · rename_i hv; exact csrFile_wf_insert h a.isLt hv

/-- Every cell listed after a write was listed before, or is the one written. -/
theorem mem_csrs_writeCsr {a : CsrAddr} {v : Word} {e : Nat × Word} (h : e ∈ (writeCsr s a v).csrs) :
    e.1 = a.toNat ∨ e ∈ s.csrs := by
  unfold writeCsr at h
  split at h
  · exact .inr (List.mem_filter.mp h).1
  · exact (mem_sparseInsert h).imp_left (congrArg Prod.fst)

/-- Reading a CSR looks at the CSR file only. -/
theorem readCsr_congr {s t : State} (h : t.csrs = s.csrs) (a : CsrAddr) : readCsr t a = readCsr s a := by
  simp [readCsr, h]

@[simp] theorem readCsr_writeReg (r : RegNum) (v : Word) (a : CsrAddr) : readCsr (writeReg s r v) a = readCsr s a :=
  readCsr_congr (csrs_writeReg s r v) a

@[simp] theorem readCsr_setPc (v : Word) (a : CsrAddr) : readCsr (s.setPc v) a = readCsr s a := rfl

@[simp] theorem readCsr_setMem (v : Memory) (a : CsrAddr) : readCsr (s.setMem v) a = readCsr s a := rfl

@[simp] theorem readCsr_setStored (v : AddrSet) (a : CsrAddr) : readCsr (s.setStored v) a = readCsr s a := rfl

@[simp] theorem readCsr_advanceBy (len : Word) (a : CsrAddr) : readCsr (advanceBy len s) a = readCsr s a := rfl

@[simp] theorem csrImplemented_advanceBy (len : Word) (a : CsrAddr) :
    csrImplemented (advanceBy len s) a = csrImplemented s a := rfl

end Sys2Proof.Machine
end

