-- ==== Sys2Proof/Laws/Decode.lean ====
section
/-! SUPPORT. The decoder, said once: no two rows of the opcode map, and no row and no invalid shift, share a word, so the
order in which `decode` tries them does not matter. -/

namespace Sys2Proof

/-- Two patterns that differ where their masks overlap share no word. -/
theorem ne_of_masks {w m p m' p' : Word} (h : w &&& m = p) (hd : p &&& m' ≠ p' &&& m) : w &&& m' ≠ p' := by
  rintro rfl
  apply hd
  rw [← h, BitVec.and_assoc, BitVec.and_assoc, BitVec.and_comm m m']

/-- The rows share no word. -/
theorem rows_disjoint : opcodeTable.Pairwise (fun r r' => r.pattern &&& r'.mask ≠ r'.pattern &&& r.mask) := by
  simp only [opcodeTable, rowsUJ, rowsB, rowsMem, rowsImm, rowsReg, rowsCsr, List.cons_append, List.nil_append]
  decide

/-- A row and an invalid shift share no word. -/
theorem rows_disjoint_invalid :
    ∀ r ∈ opcodeTable, ∀ p ∈ invalidShiftPatterns, r.pattern &&& maskOpF3F7 ≠ p &&& r.mask := by
  simp [opcodeTable, rowsUJ, rowsB, rowsMem, rowsImm, rowsReg, rowsCsr, invalidShiftPatterns, maskOp, maskOpF3,
    maskOpF3F7]

theorem find_of_pairwise {w : Word} {rows : List OpcodeRow}
    (hd : rows.Pairwise (fun r r' => r.pattern &&& r'.mask ≠ r'.pattern &&& r.mask)) {r : OpcodeRow} (hr : r ∈ rows)
    (h : w &&& r.mask = r.pattern) : rows.find? (fun r => w &&& r.mask == r.pattern) = some r := by
  induction rows with
  | nil => cases hr
  | cons q rows ih =>
    obtain ⟨hq, hd⟩ := List.pairwise_cons.mp hd
    rcases List.mem_cons.mp hr with rfl | hr
    · simp [h]
    · have : w &&& q.mask ≠ q.pattern := ne_of_masks h (hq r hr).symm
      rw [List.find?_cons_of_neg (by simpa using this)]
      exact ih hd hr

/-- A word under a row's pattern decodes by that row. -/
theorem decode_of_row {w : Word} {r : OpcodeRow} (hr : r ∈ opcodeTable) (h : w &&& r.mask = r.pattern) :
    decode w = .instr (r.build w) := by
  have hi : ¬ invalidShiftPatterns.any (fun p => w &&& maskOpF3F7 == p) = true := by
    simp only [List.any_eq_true, beq_iff_eq, not_exists, not_and]
    exact fun p hp => ne_of_masks h (rows_disjoint_invalid r hr p hp)
  simp only [decode, if_neg hi, find_of_pairwise rows_disjoint hr h]

/-- Only the three invalid shifts are illegal. -/
theorem decode_illegal {w : Word} : decode w = .illegalInstruction ↔ ∃ p ∈ invalidShiftPatterns, w &&& maskOpF3F7 = p := by
  simp only [decode]
  split_ifs with h
  · simpa using h
  · simp only [List.any_eq_true, beq_iff_eq] at h
    simp only [h, iff_false]
    split <;> simp

/-- A word that decodes to an instruction is under the pattern of a row that builds it. -/
theorem row_of_decode {w : Word} {i : Instr} (h : decode w = .instr i) :
    ∃ r ∈ opcodeTable, w &&& r.mask = r.pattern ∧ i = r.build w := by
  simp only [decode] at h
  split_ifs at h
  split at h
  · rename_i r hf
    cases h
    exact ⟨r, List.mem_of_find?_eq_some hf, by simpa using List.find?_some hf, rfl⟩
  · cases h

/-- Every other word has no meaning. -/
theorem decode_unknown {w : Word} (hi : ∀ p ∈ invalidShiftPatterns, w &&& maskOpF3F7 ≠ p)
    (hr : ∀ r ∈ opcodeTable, w &&& r.mask ≠ r.pattern) : decode w = .unknownEncoding := by
  cases h : decode w with
  | instr i => obtain ⟨r, h1, h2, -⟩ := row_of_decode h; exact absurd h2 (hr r h1)
  | illegalInstruction => obtain ⟨p, h1, h2⟩ := decode_illegal.mp h; exact absurd h2 (hi p h1)
  | unknownEncoding => rfl

end Sys2Proof
end

