-- ==== Sys2Proof/Laws/Memory.lean ====
section
/-! SUPPORT. Memory: reading a byte after storing bytes, the two memory primitives said once, byte order, and the
canonical form is kept. -/

namespace Sys2Proof.Machine

variable (s : State)

/-! ## One byte -/

theorem memByte_eq (a : Word) : memByte s a = sparseLookup s.mem a.toNat := by
  unfold memByte
  cases sparseLookup s.mem a.toNat <;> rfl

theorem memByte_congr {s t : State} (h : t.mem = s.mem) (a : Word) : memByte t a = memByte s a := by
  simp [memByte_eq, h]

theorem wasStored_iff (a : Word) : wasStored s a = true ↔ a.toNat ∈ s.stored := by
  simp [wasStored]

theorem wasStored_congr {s t : State} (h : t.stored = s.stored) (a : Word) : wasStored t a = wasStored s a := by
  simp [wasStored, h]

theorem mapped_congr {s t : State} (h : t.platform = s.platform) (a : Word) : mapped t a = mapped s a := by
  simp [mapped, h]

theorem sameMemory_of_eq {s t : State} (hm : t.mem = s.mem) (hs : t.stored = s.stored) : SameMemory s t :=
  ⟨memByte_congr hm, wasStored_congr hs⟩

/-- Reading a byte after storing one. -/
theorem memByte_storeByte (a : Word) (b : Byte) (c : Word) :
    memByte (storeByte s a b) c = if c = a then some b else memByte s c := by
  have key : (a.toNat = c.toNat) ↔ c = a := ⟨fun e => (BitVec.eq_of_toNat_eq e).symm, fun e => e ▸ rfl⟩
  simp [memByte_eq, storeByte, sparseLookup_insert, key]

theorem wasStored_storeByte (a : Word) (b : Byte) (c : Word) :
    wasStored (storeByte s a b) c = (wasStored s c || decide (c = a)) := by
  rw [Bool.eq_iff_iff]
  simp only [wasStored_iff, Bool.or_eq_true, decide_eq_true_eq]
  rw [← BitVec.toNat_inj]
  simp [storeByte, mem_addrInsert, or_comm]

/-! ## Runs of addresses -/

theorem byteAddrs_length (addr : Word) (n : Nat) : (byteAddrs addr n).length = n := by simp [byteAddrs]

theorem byteAddrs_succ (addr : Word) (n : Nat) : byteAddrs addr (n + 1) = addr :: byteAddrs (addr + 1) n := by
  simp only [byteAddrs, List.range_succ_eq_map, List.map_cons, List.map_map]
  congr 1
  · simp
  · refine List.map_congr_left fun k _ => ?_
    simp only [Function.comp]
    rw [Nat.succ_eq_add_one, BitVec.ofNat_add, BitVec.add_assoc, BitVec.add_comm (BitVec.ofNat 32 k)]
    rfl

theorem mem_byteAddrs (addr : Word) (n : Nat) (a : Word) :
    a ∈ byteAddrs addr n ↔ ∃ k < n, a = addr + BitVec.ofNat 32 k := by
  simp [byteAddrs, eq_comm]

/-- The check of MEM_MAP over a run of addresses. -/
theorem all_mapped_iff (addr : Word) (n : Nat) : (byteAddrs addr n).all (mapped s) = true ↔ AllMapped s addr n := by
  simp [byteAddrs, AllMapped]

/-! ## Storing bytes -/

@[simp] theorem platform_storeBytes (as : List Word) (bs : List Byte) :
    (storeBytes s as bs).platform = s.platform := by
  induction as generalizing s bs with
  | nil => rfl
  | cons a as ih => cases bs with
    | nil => rfl
    | cons b bs => exact ih _ _

@[simp] theorem regs_storeBytes (as : List Word) (bs : List Byte) : (storeBytes s as bs).regs = s.regs := by
  induction as generalizing s bs with
  | nil => rfl
  | cons a as ih => cases bs with
    | nil => rfl
    | cons b bs => exact ih _ _

@[simp] theorem pc_storeBytes (as : List Word) (bs : List Byte) : (storeBytes s as bs).pc = s.pc := by
  induction as generalizing s bs with
  | nil => rfl
  | cons a as ih => cases bs with
    | nil => rfl
    | cons b bs => exact ih _ _

@[simp] theorem csrs_storeBytes (as : List Word) (bs : List Byte) : (storeBytes s as bs).csrs = s.csrs := by
  induction as generalizing s bs with
  | nil => rfl
  | cons a as ih => cases bs with
    | nil => rfl
    | cons b bs => exact ih _ _

/-- Reading a byte after storing a run of bytes: the byte of the run at its place, the old byte outside it. -/
theorem memByte_storeBytes (addr : Word) (bs : List Byte) (h : bs.length ≤ 2 ^ 32) (a : Word) :
    memByte (storeBytes s (byteAddrs addr bs.length) bs) a =
      if (a - addr).toNat < bs.length then bs[(a - addr).toNat]? else memByte s a := by
  induction bs generalizing s addr with
  | nil => simp [storeBytes]
  | cons b bs ih =>
    rw [List.length_cons] at h
    rw [List.length_cons, byteAddrs_succ, storeBytes, ih _ _ (by omega), memByte_storeByte]
    by_cases ha : a = addr
    · subst ha
      simp; omega
    · have h1 : (a - addr).toNat = (a - (addr + 1)).toNat + 1 := by bv_omega
      simp [h1, ha]

/-- The bytes recorded as stored after storing a run of bytes. -/
theorem wasStored_storeBytes (addr : Word) (bs : List Byte) (h : bs.length ≤ 2 ^ 32) (a : Word) :
    wasStored (storeBytes s (byteAddrs addr bs.length) bs) a =
      (wasStored s a || decide ((a - addr).toNat < bs.length)) := by
  induction bs generalizing s addr with
  | nil => simp [storeBytes]
  | cons b bs ih =>
    rw [List.length_cons] at h
    rw [List.length_cons, byteAddrs_succ, storeBytes, ih _ _ (by omega), wasStored_storeByte]
    by_cases ha : a = addr
    · subst ha; simp
    · have h1 : (a - addr).toNat = (a - (addr + 1)).toNat + 1 := by bv_omega
      simp [h1, ha]

/-- Storing bytes keeps memory canonical. -/
theorem memory_wf_storeBytes (h : Memory.wf s.mem = true) (as : List Word) (bs : List Byte) :
    Memory.wf (storeBytes s as bs).mem = true := by
  induction as generalizing s bs with
  | nil => exact h
  | cons a as ih => cases bs with
    | nil => exact h
    | cons b bs => exact ih _ (memory_wf_insert h a.isLt b) _

/-- Storing bytes keeps the set of stored bytes canonical. -/
theorem rising_storeBytes (h : rising s.stored = true) (as : List Word) (bs : List Byte) :
    rising (storeBytes s as bs).stored = true := by
  induction as generalizing s bs with
  | nil => exact h
  | cons a as ih => cases bs with
    | nil => exact h
    | cons b bs => exact ih _ (rising_addrInsert _ _ h) _

/-- Every byte recorded after storing was recorded before, or is one of the addresses. -/
theorem mem_stored_storeBytes (as : List Word) (bs : List Byte) {k : Nat} (h : k ∈ (storeBytes s as bs).stored) :
    k ∈ s.stored ∨ ∃ a ∈ as, k = a.toNat := by
  induction as generalizing s bs with
  | nil => exact .inl h
  | cons a as ih => cases bs with
    | nil => exact .inl h
    | cons b bs =>
      rcases ih _ _ h with h | ⟨c, hc, rfl⟩
      · rcases (mem_addrInsert _ _ _).mp h with rfl | h
        · exact .inr ⟨a, List.mem_cons_self, rfl⟩
        · exact .inl h
      · exact .inr ⟨c, List.mem_cons_of_mem _ hc, rfl⟩

/-- Every byte recorded after storing holds a value, if that was so before. -/
theorem storedListed_storeBytes (h : ∀ k ∈ s.stored, (sparseLookup s.mem k).isSome = true) (as : List Word)
    (bs : List Byte) : ∀ k ∈ (storeBytes s as bs).stored, (sparseLookup (storeBytes s as bs).mem k).isSome = true := by
  induction as generalizing s bs with
  | nil => exact h
  | cons a as ih => cases bs with
    | nil => exact h
    | cons b bs =>
      refine ih _ (fun k hk => ?_) _
      simp only [storeByte, mem_setStored, mem_setMem, stored_setStored, sparseLookup_insert] at *
      split_ifs with e
      · rfl
      · rcases (mem_addrInsert _ _ _).mp hk with rfl | hk
        · exact absurd rfl e
        · exact h k hk

/-! ## Reading bytes -/

/-- Reading succeeds with `bs` exactly when the bytes hold those values. -/
theorem readBytes_ok_iff (as : List Word) (bs : List Byte) :
    readBytes s as = .ok bs ↔ as.map (memByte s) = bs.map some := by
  induction as generalizing bs with
  | nil => cases bs <;> simp [readBytes]
  | cons a as ih =>
    simp only [readBytes, List.map_cons]
    cases hm : memByte s a with
    | none => cases bs <;> simp
    | some b =>
      cases hr : readBytes s as with
      | error f =>
        cases bs with
        | nil => simp
        | cons c cs => simp only [reduceCtorEq, List.map_cons, List.cons.injEq, false_iff, not_and]
                       intro _ h
                       rw [(ih cs).mpr h] at hr; cases hr
      | ok cs =>
        cases bs with
        | nil => simp
        | cons d ds =>
          simp only [Except.ok.injEq, List.cons.injEq, List.map_cons, Option.some.injEq, and_congr_right_iff]
          intro _
          rw [← ih ds, hr, Except.ok.injEq]

/-- Reading a run of bytes whose values are known. -/
theorem readBytes_of_bytesAre {addr : Word} {bs : List Byte} (h : BytesAre s addr bs) :
    readBytes s (byteAddrs addr bs.length) = .ok bs := by
  rw [readBytes_ok_iff]
  apply List.ext_getElem
  · simp [byteAddrs]
  · intro k h1 h2
    simp only [byteAddrs, List.map_map, List.getElem_map, List.getElem_range, Function.comp]
    have hk : k < bs.length := by simpa using h2
    rw [h k hk, List.getElem?_eq_getElem hk]

theorem bytesAre_of_readBytes {addr : Word} {n : Nat} {bs : List Byte}
    (h : readBytes s (byteAddrs addr n) = .ok bs) : bs.length = n ∧ BytesAre s addr bs := by
  rw [readBytes_ok_iff] at h
  have hl : bs.length = n := by simpa [byteAddrs] using (congrArg List.length h).symm
  refine ⟨hl, fun k hk => ?_⟩
  have := congrArg (fun l => l[k]?) h
  simp only [byteAddrs, List.map_map, List.getElem?_map, List.getElem?_range (hl ▸ hk : k < n)] at this
  rw [List.getElem?_eq_getElem hk] at this ⊢
  simpa using this

/-- Reading fails exactly at the first byte that holds no value. -/
theorem readBytes_error_iff (addr : Word) (n : Nat) (f : Fault) :
    readBytes s (byteAddrs addr n) = .error f ↔
      ∃ k < n, memByte s (addr + BitVec.ofNat 32 k) = none ∧
        (∀ j < k, memByte s (addr + BitVec.ofNat 32 j) ≠ none) ∧ f = .unwrittenRead (addr + BitVec.ofNat 32 k) := by
  induction n generalizing addr with
  | zero => simp [byteAddrs, readBytes]
  | succ n ih =>
    have shift : ∀ k, addr + 1 + BitVec.ofNat 32 k = addr + BitVec.ofNat 32 (k + 1) := fun k => by
      rw [BitVec.ofNat_add, BitVec.add_assoc, BitVec.add_comm (BitVec.ofNat 32 k)]
      rfl
    rw [byteAddrs_succ, readBytes]
    cases hm : memByte s addr with
    | none =>
      constructor
      · intro h
        cases h
        exact ⟨0, by omega, by simpa using hm, by simp, by simp⟩
      · rintro ⟨k, -, -, hj, rfl⟩
        cases k with
        | zero => simp
        | succ k => exact absurd (by simpa using hm) (hj 0 (by omega))
    | some b =>
      have ih := ih (addr + 1)
      simp only [shift] at ih
      have step : (∃ k < n + 1, memByte s (addr + BitVec.ofNat 32 k) = none ∧
            (∀ j < k, memByte s (addr + BitVec.ofNat 32 j) ≠ none) ∧ f = .unwrittenRead (addr + BitVec.ofNat 32 k)) ↔
          readBytes s (byteAddrs (addr + 1) n) = .error f := by
        rw [ih]
        constructor
        · rintro ⟨k, hk, h0, hj, rfl⟩
          cases k with
          | zero => rw [show addr + BitVec.ofNat 32 0 = addr by simp, hm] at h0; cases h0
          | succ k => exact ⟨k, by omega, h0, fun j hj' => hj (j + 1) (by omega), rfl⟩
        · rintro ⟨k, hk, h0, hj, rfl⟩
          refine ⟨k + 1, by omega, h0, fun j hj' => ?_, rfl⟩
          cases j with
          | zero => rw [show addr + BitVec.ofNat 32 0 = addr by simp, hm]; simp
          | succ j => exact hj j (by omega)
      rw [step]
      cases readBytes s (byteAddrs (addr + 1) n) <;> simp

/-! ## Byte order -/

theorem wordOfBytes_four (b0 b1 b2 b3 : Byte) : wordOfBytes [b0, b1, b2, b3] = b3 ++ b2 ++ b1 ++ b0 := by
  apply BitVec.eq_of_getLsbD_eq
  intro i hi
  simp only [wordOfBytes, BitVec.getLsbD_append, BitVec.getLsbD_or, BitVec.getLsbD_shiftLeft, BitVec.getLsbD_setWidth,
    BitVec.getLsbD_zero]
  interval_cases i <;> simp

theorem wordOfBytes_two (b0 b1 : Byte) : wordOfBytes [b0, b1] = (b1 ++ b0).setWidth 32 := by
  apply BitVec.eq_of_getLsbD_eq
  intro i hi
  simp only [wordOfBytes, BitVec.getLsbD_append, BitVec.getLsbD_or, BitVec.getLsbD_shiftLeft, BitVec.getLsbD_setWidth,
    BitVec.getLsbD_zero]
  interval_cases i <;> simp

theorem wordOfBytes_one (b0 : Byte) : wordOfBytes [b0] = b0.setWidth 32 := by
  simp [wordOfBytes]

theorem bytesOfWord_length (n : Nat) (v : Word) : (bytesOfWord n v).length = n := by
  induction n generalizing v with
  | zero => rfl
  | succ n ih => simp [bytesOfWord, ih]

theorem bytesOfWord_four (v : Word) :
    bytesOfWord 4 v = [v.extractLsb' 0 8, v.extractLsb' 8 8, v.extractLsb' 16 8, v.extractLsb' 24 8] := by
  simp only [bytesOfWord, List.cons.injEq, and_true]
  refine ⟨?_, ?_, ?_, ?_⟩ <;> (apply BitVec.eq_of_getLsbD_eq; intro i hi; simp [hi])

theorem bytesOfWord_two (v : Word) : bytesOfWord 2 v = [v.extractLsb' 0 8, v.extractLsb' 8 8] := by
  have := bytesOfWord_four v
  simp only [bytesOfWord, List.cons.injEq] at this ⊢
  exact ⟨this.1, this.2.1, trivial⟩

theorem bytesOfWord_one (v : Word) : bytesOfWord 1 v = [v.extractLsb' 0 8] := by
  have := bytesOfWord_four v
  simp only [bytesOfWord, List.cons.injEq] at this ⊢
  exact ⟨this.1, trivial⟩

/-- The bytes of a word make the word. -/
theorem wordOfBytes_bytesOfWord (v : Word) : wordOfBytes (bytesOfWord 4 v) = v := by
  rw [bytesOfWord_four, wordOfBytes_four]
  apply BitVec.eq_of_getLsbD_eq
  intro i hi
  simp only [BitVec.getLsbD_append, BitVec.getLsbD_extractLsb']
  interval_cases i <;> simp

/-! ## The two primitives -/

/-- `MemRead` (R44), said once. -/
theorem memRead_cases (addr : Word) (n : Nat) :
    (addr.toNat % n ≠ 0 ∧ memRead s addr n = .error (.misalignedLoad addr)) ∨
    (addr.toNat % n = 0 ∧ ¬ AllMapped s addr n ∧ memRead s addr n = .error (.loadAccessFault addr)) ∨
    (addr.toNat % n = 0 ∧ AllMapped s addr n ∧
      ((∃ k < n, memByte s (addr + BitVec.ofNat 32 k) = none ∧
          (∀ j < k, memByte s (addr + BitVec.ofNat 32 j) ≠ none) ∧
          memRead s addr n = .error (.unwrittenRead (addr + BitVec.ofNat 32 k))) ∨
       (∃ bs, bs.length = n ∧ BytesAre s addr bs ∧ memRead s addr n = .ok (wordOfBytes bs)))) := by
  unfold memRead
  by_cases h1 : addr.toNat % n = 0
  · by_cases h2 : AllMapped s addr n
    · refine .inr (.inr ⟨h1, h2, ?_⟩)
      simp only [h1, (all_mapped_iff s addr n).mpr h2, ne_eq, not_true_eq_false, if_false, Bool.not_true,
        Bool.false_eq_true]
      cases hr : readBytes s (byteAddrs addr n) with
      | error f =>
        obtain ⟨k, hk, h0, hj, rfl⟩ := (readBytes_error_iff s addr n f).mp hr
        exact .inl ⟨k, hk, h0, hj, rfl⟩
      | ok bs => exact .inr ⟨bs, (bytesAre_of_readBytes s hr).1, (bytesAre_of_readBytes s hr).2, rfl⟩
    · refine .inr (.inl ⟨h1, h2, ?_⟩)
      have : (byteAddrs addr n).all (mapped s) = false := by
        rw [← Bool.not_eq_true, all_mapped_iff]; exact h2
      simp [h1, this]
  · exact .inl ⟨h1, by simp [h1]⟩

/-- `MemRead` where it succeeds. -/
theorem memRead_of_bytesAre {addr : Word} {bs : List Byte} (ha : addr.toNat % bs.length = 0)
    (hm : AllMapped s addr bs.length) (hb : BytesAre s addr bs) :
    memRead s addr bs.length = .ok (wordOfBytes bs) := by
  unfold memRead
  simp only [ha, (all_mapped_iff s addr _).mpr hm, ne_eq, not_true_eq_false, if_false, Bool.not_true,
    Bool.false_eq_true, readBytes_of_bytesAre s hb]

/-- `MemWrite` (R45), said once. -/
theorem memWrite_cases (addr : Word) (n : Nat) (v : Word) :
    (addr.toNat % n ≠ 0 ∧ memWrite s addr n v = .error (.misalignedStore addr)) ∨
    (addr.toNat % n = 0 ∧ ¬ AllMapped s addr n ∧ memWrite s addr n v = .error (.storeAccessFault addr)) ∨
    (addr.toNat % n = 0 ∧ AllMapped s addr n ∧
      memWrite s addr n v = .ok (storeBytes s (byteAddrs addr n) (bytesOfWord n v))) := by
  unfold memWrite
  by_cases h1 : addr.toNat % n = 0
  · by_cases h2 : AllMapped s addr n
    · exact .inr (.inr ⟨h1, h2, by simp [h1, (all_mapped_iff s addr n).mpr h2]⟩)
    · have : (byteAddrs addr n).all (mapped s) = false := by
        rw [← Bool.not_eq_true, all_mapped_iff]; exact h2
      exact .inr (.inl ⟨h1, h2, by simp [h1, this]⟩)
  · exact .inl ⟨h1, by simp [h1]⟩

end Sys2Proof.Machine
end

