-- ==== Sys2Proof/Laws/Fetch.lean ====
section
/-! SUPPORT. Fetching said once, the step in its terms, and placing bytes from outside the machine. -/

namespace Sys2Proof.Machine

variable {s : State}

/-! ## Fetching -/

theorem any_wasStored_iff (addr : Word) (n : Nat) :
    (byteAddrs addr n).any (wasStored s) = true ↔ ∃ k < n, wasStored s (addr + BitVec.ofNat 32 k) = true := by
  simp [byteAddrs]

/-- `fetch`: the first check of spec/60_exceptions.md R225 (1) to (4) that applies, else the little-endian word at the
pc. -/
theorem fetch_cases (s : State) :
    (s.pc.toNat % 4 ≠ 0 ∧ fetch s = .fault (.misalignedFetch s.pc)) ∨
    (s.pc.toNat % 4 = 0 ∧ ¬ AllMapped s s.pc 4 ∧ fetch s = .fault (.fetchAccessFault s.pc)) ∨
    (s.pc.toNat % 4 = 0 ∧ AllMapped s s.pc 4 ∧
      (((∃ k < 4, wasStored s (s.pc + BitVec.ofNat 32 k) = true) ∧ fetch s = .refused (.selfModifyingCode s.pc)) ∨
       ((∀ k < 4, wasStored s (s.pc + BitVec.ofNat 32 k) = false) ∧
        ((∃ k < 4, memByte s (s.pc + BitVec.ofNat 32 k) = none ∧
            (∀ j < k, memByte s (s.pc + BitVec.ofNat 32 j) ≠ none) ∧
            fetch s = .fault (.unwrittenRead (s.pc + BitVec.ofNat 32 k))) ∨
         (∃ b0 b1 b2 b3, BytesAre s s.pc [b0, b1, b2, b3] ∧ fetch s = .next (b3 ++ b2 ++ b1 ++ b0)))))) := by
  unfold fetch Config.ialign
  by_cases h1 : s.pc.toNat % 4 = 0
  · by_cases h2 : AllMapped s s.pc 4
    · refine .inr (.inr ⟨h1, h2, ?_⟩)
      simp only [h1, (all_mapped_iff s s.pc 4).mpr h2, ne_eq, not_true_eq_false, if_false, Bool.not_true,
        Bool.false_eq_true]
      by_cases h3 : ∃ k < 4, wasStored s (s.pc + BitVec.ofNat 32 k) = true
      · exact .inl ⟨h3, if_pos ((any_wasStored_iff s.pc 4).mpr h3)⟩
      · refine .inr ⟨by simpa using h3, ?_⟩
        rw [if_neg ((any_wasStored_iff s.pc 4).not.mpr h3)]
        cases hr : readBytes s (byteAddrs s.pc 4) with
        | error f =>
          obtain ⟨k, hk, h0, hj, rfl⟩ := (readBytes_error_iff s s.pc 4 f).mp hr
          exact .inl ⟨k, hk, h0, hj, rfl⟩
        | ok bs =>
          obtain ⟨hl, hb⟩ := bytesAre_of_readBytes s hr
          match bs, hl with
          | [b0, b1, b2, b3], _ =>
            exact .inr ⟨b0, b1, b2, b3, hb, congrArg Host.Outcome.next (wordOfBytes_four b0 b1 b2 b3)⟩
    · have : (byteAddrs s.pc 4).all (mapped s) = false := by
        rw [← Bool.not_eq_true, all_mapped_iff]; exact h2
      exact .inr (.inl ⟨h1, h2, by simp [h1, this]⟩)
  · exact .inl ⟨h1, by simp [h1]⟩

/-- What a fetched word says of the state. -/
theorem fetch_next {ir : Word} (h : fetch s = .next ir) :
    s.pc.toNat % 4 = 0 ∧ AllMapped s s.pc 4 ∧ (∀ k < 4, wasStored s (s.pc + BitVec.ofNat 32 k) = false) ∧
      ∃ b0 b1 b2 b3, BytesAre s s.pc [b0, b1, b2, b3] ∧ ir = b3 ++ b2 ++ b1 ++ b0 := by
  rcases fetch_cases s with ⟨-, e⟩ | ⟨-, -, e⟩ | ⟨h1, h2, ⟨-, e⟩ | ⟨h3, ⟨k, -, -, -, e⟩ | ⟨b0, b1, b2, b3, hb, e⟩⟩⟩ <;>
    rw [e] at h <;> cases h
  exact ⟨h1, h2, h3, b0, b1, b2, b3, hb, rfl⟩

/-- The step on a fetched word, by its decoding. -/
theorem step_of_fetch {ir : Word} (h : fetch s = .next ir) :
    step s =
      match decode ir with
      | .instr i => exec i s
      | .illegalInstruction => .fault (.illegalInstruction ir)
      | .unknownEncoding => .refused (.unknownEncoding ir) := by
  simp only [step, fetchInstr, raise, refuse, h]
  cases decode ir <;> rfl

/-- A step that answers a next state has fetched a word, decoded it to an instruction and executed that. -/
theorem step_next {t : State} (h : step s = .next t) :
    ∃ ir i, fetch s = .next ir ∧ decode ir = .instr i ∧ exec i s = .next t := by
  cases hf : fetch s with
  | next ir =>
    rw [step_of_fetch hf] at h
    cases hd : decode ir with
    | instr i => rw [hd] at h; exact ⟨ir, i, rfl, hd, h⟩
    | illegalInstruction => rw [hd] at h; cases h
    | unknownEncoding => rw [hd] at h; cases h
  | fault f => simp [step, fetchInstr, hf, raise] at h
  | refused r => simp [step, fetchInstr, hf, refuse] at h

/-! ## Placing bytes -/

/-- Placing bytes keeps memory canonical. -/
theorem memory_wf_placeBytes (h : Memory.wf s.mem = true) (as : List Word) (bs : List Byte) :
    Memory.wf (placeBytes s as bs).mem = true := by
  induction as generalizing s bs with
  | nil => exact h
  | cons a as ih => cases bs with
    | nil => exact h
    | cons b bs => exact ih (memory_wf_insert h a.isLt b) _

/-- Placing bytes keeps the set of stored bytes canonical. -/
theorem rising_placeBytes (h : rising s.stored = true) (as : List Word) (bs : List Byte) :
    rising (placeBytes s as bs).stored = true := by
  induction as generalizing s bs with
  | nil => exact h
  | cons a as ih => cases bs with
    | nil => exact h
    | cons b bs => exact ih (rising_filter _ _ h) _

/-- Reading a byte after placing one. -/
theorem memByte_placeByte (a : Word) (b : Byte) (c : Word) :
    memByte (placeByte s a b) c = if c = a then some b else memByte s c := by
  have key : (a.toNat = c.toNat) ↔ c = a := ⟨fun e => (BitVec.eq_of_toNat_eq e).symm, fun e => e ▸ rfl⟩
  simp [memByte_eq, placeByte, sparseLookup_insert, key]

/-- A placed byte counts as not stored, every other as before. -/
theorem wasStored_placeByte (a : Word) (b : Byte) (c : Word) :
    wasStored (placeByte s a b) c = (wasStored s c && decide (c ≠ a)) := by
  rw [Bool.eq_iff_iff]
  simp only [wasStored_iff, Bool.and_eq_true, decide_eq_true_eq, ne_eq]
  rw [← BitVec.toNat_inj]
  simp [placeByte]

/-- The reset memory is canonical. -/
theorem memory_wf_reset : Memory.wf State.reset.mem = true := rfl

end Sys2Proof.Machine
end

