-- ==== Sys2Proof/Laws/Ops.lean ====
section
/-! SUPPORT. The shared operations, each said once in the terms of Sys2Proof/Safety.lean, and what an instruction that
answers a next state has done. -/

namespace Sys2Proof.Machine

variable {s t : State}

/-! ## Ending an instruction -/

@[simp] theorem advanceBy_eq (len : Word) (s : State) : advanceBy len s = s.setPc (s.pc + len) := rfl

/-- Setting the pc after writing a register changes that register and the pc only. -/
theorem onlyRd_writeReg (s : State) (rd : RegNum) (v p : Word) : OnlyRd s ((writeReg s rd v).setPc p) rd :=
  ⟨fun r hr => by simp [readReg_writeReg, hr], fun a => readCsr_writeReg s rd v a,
    sameMemory_of_eq (by simp) (by simp), by simp [SamePlatform]⟩

/-- The register written holds the value; x[0] holds 0. -/
theorem rdHolds_writeReg (s : State) (rd : RegNum) {v : Word} (p : Word) {P : Word → Prop} (h : P v) :
    RdHolds ((writeReg s rd v).setPc p) rd P :=
  ⟨fun hr => by simpa [readReg_writeReg, hr] using h, rfl⟩

/-- An instruction that ends by writing a register and moving the pc completes. -/
theorem completesBy_of_eq {i : Instr} {rd : RegNum} {v len : Word} {P : Word → Prop}
    (h : exec i s = .next (advanceBy len (writeReg s rd v))) (hv : P v) : CompletesBy len i s rd P :=
  ⟨_, h, by simp, rdHolds_writeReg s rd _ hv, onlyRd_writeReg s rd v _⟩

/-- `finishRd` completes. -/
theorem completes_of_finishRd {i : Instr} {rd : RegNum} {v : Word} {P : Word → Prop}
    (h : exec i s = finishRd s rd v) (hv : P v) : Completes i s rd P :=
  completesBy_of_eq h hv

/-! ## Jumps and branches -/

/-- `jumpTo`: it goes to an aligned target, and faults at any other. -/
theorem jumpTo_cases (s : State) (t : Word) :
    (t.toNat % 4 = 0 ∧ jumpTo s t = .next (s.setPc t)) ∨
    (t.toNat % 4 ≠ 0 ∧ jumpTo s t = .fault (.misalignedTarget t)) := by
  unfold jumpTo raise Config.ialign
  by_cases h : t.toNat % 4 = 0
  · exact .inl ⟨h, by simp [h]⟩
  · exact .inr ⟨h, by simp [h]⟩

/-- `linkAndJump` is a jump as spec/41_jumps.md gives it. -/
theorem jumpsTo_of_linkAndJump {i : Instr} {rd : RegNum} {t : Word} (h : exec i s = linkAndJump s rd t) :
    JumpsTo i s rd t := by
  unfold linkAndJump at h
  constructor <;> intro ht <;> rcases jumpTo_cases (writeReg s rd (s.pc + Config.ilen)) t with ⟨h', e⟩ | ⟨h', e⟩
  · exact ⟨_, h.trans e, rfl, rdHolds_writeReg s rd t rfl, onlyRd_writeReg s rd _ t⟩
  · exact absurd ht h'
  · exact absurd h' ht
  · exact h.trans e

/-- `branchIf` is a branch as spec/42_branches.md gives it. -/
theorem branchesOn_of_branchIf {i : Instr} {c : Bool} {off : BitVec 13} {P : Prop} (hc : c = true ↔ P)
    (h : exec i s = branchIf c s off) : BranchesOn i s P (s.pc + signed13 off) := by
  rw [BranchesOn, h, ← hc]
  cases c
  · simp [branchIf, Config.ilen]
  · rcases jumpTo_cases s (s.pc + signed13 off) with ⟨ht, e⟩ | ⟨ht, e⟩ <;>
      simp only [branchIf, e, ht, if_true] <;> tauto

/-! ## Loads and stores -/

/-- A load that is not aligned faults. -/
theorem loadMisaligned_of_loadFrom {i : Instr} {addr : Word} {n : Nat} {ext : Word → Word} {rd : RegNum} {len : Word}
    (h : exec i s = loadFrom s addr n ext rd len) : LoadMisaligned i s addr n := by
  intro ha
  rw [h, loadFrom]
  rcases memRead_cases s addr n with ⟨-, e⟩ | ⟨h1, -⟩ | ⟨h1, -⟩
  · rw [e]; rfl
  · exact absurd h1 ha
  · exact absurd h1 ha

/-- An aligned load that leaves MEM_MAP faults. -/
theorem loadStops_of_loadFrom {i : Instr} {addr : Word} {n : Nat} {ext : Word → Word} {rd : RegNum} {len : Word}
    (h : exec i s = loadFrom s addr n ext rd len) : LoadStops i s addr n := by
  intro ha hm
  rw [h, loadFrom]
  rcases memRead_cases s addr n with ⟨h1, -⟩ | ⟨-, -, e⟩ | ⟨-, h2, -⟩
  · exact absurd ha h1
  · rw [e]; rfl
  · exact absurd h2 hm

/-- An aligned, mapped load of a byte without a value faults. -/
theorem loadUnwritten_of_loadFrom {i : Instr} {addr : Word} {n : Nat} {ext : Word → Word} {rd : RegNum} {len : Word}
    (h : exec i s = loadFrom s addr n ext rd len) : LoadUnwritten i s addr n := by
  intro ha hm k' hk' h0' hj'
  rw [h, loadFrom]
  rcases memRead_cases s addr n with ⟨h1, -⟩ | ⟨-, h2, -⟩ | ⟨-, -, ⟨k, -, h0, hj, e⟩ | ⟨bs, hl, hb, -⟩⟩
  · exact absurd ha h1
  · exact absurd hm h2
  · have : k' = k := by
      rcases Nat.lt_trichotomy k' k with hlt | heq | hgt
      · exact absurd h0' (hj k' hlt)
      · exact heq
      · exact absurd h0 (hj' k hgt)
    rw [e, this]; rfl
  · have := hb k' (hl ▸ hk')
    rw [h0', List.getElem?_eq_getElem (hl ▸ hk')] at this
    cases this

/-- A load of bytes that hold values completes. -/
theorem completesBy_of_loadFrom {i : Instr} {addr : Word} {bs : List Byte} {ext : Word → Word} {rd : RegNum}
    {len : Word} {P : Word → Prop} (h : exec i s = loadFrom s addr bs.length ext rd len)
    (ha : addr.toNat % bs.length = 0) (hm : AllMapped s addr bs.length) (hb : BytesAre s addr bs)
    (hv : P (ext (wordOfBytes bs))) : CompletesBy len i s rd P := by
  refine completesBy_of_eq (h.trans ?_) hv
  unfold loadFrom
  rw [memRead_of_bytesAre s ha hm hb]

/-- A store that is not aligned faults. -/
theorem storeMisaligned_of_storeTo {i : Instr} {addr : Word} {n : Nat} {v len : Word}
    (h : exec i s = storeTo s addr n v len) : StoreMisaligned i s addr n := by
  intro ha
  rw [h, storeTo]
  rcases memWrite_cases s addr n v with ⟨-, e⟩ | ⟨h1, -⟩ | ⟨h1, -⟩
  · rw [e]; rfl
  · exact absurd h1 ha
  · exact absurd h1 ha

/-- An aligned store stops as `MemWrite` does. -/
theorem storeStops_of_storeTo {i : Instr} {addr : Word} {n : Nat} {v len : Word}
    (h : exec i s = storeTo s addr n v len) : StoreStops i s addr n := by
  intro ha hm
  rw [h, storeTo]
  rcases memWrite_cases s addr n v with ⟨h1, -⟩ | ⟨-, -, e⟩ | ⟨-, h2, -⟩
  · exact absurd ha h1
  · rw [e]; rfl
  · exact absurd h2 hm

/-- A store to aligned, mapped addresses completes. -/
theorem storeCompletes_of_storeTo {i : Instr} {addr : Word} {n : Nat} {v len : Word}
    (h : exec i s = storeTo s addr n v len) (hn : n ≤ 2 ^ 32) (ha : addr.toNat % n = 0) (hm : AllMapped s addr n) :
    StoreCompletes len i s addr (bytesOfWord n v) := by
  have hl : (bytesOfWord n v).length = n := bytesOfWord_length n v
  have hm' := memByte_storeBytes s addr (bytesOfWord n v) (by omega)
  have hs' := wasStored_storeBytes s addr (bytesOfWord n v) (by omega)
  simp only [hl] at hm' hs'
  rcases memWrite_cases s addr n v with ⟨h1, -⟩ | ⟨-, h2, -⟩ | ⟨-, -, e⟩
  · exact absurd ha h1
  · exact absurd hm h2
  · refine ⟨(storeBytes s (byteAddrs addr n) (bytesOfWord n v)).setPc (s.pc + len), ?_, rfl,
      readReg_congr (by simp), readCsr_congr (by simp), by simp [SamePlatform], fun k hk => ?_, fun a hk => ?_,
      fun a => ?_⟩
    · rw [h, storeTo, e]; simp
    · rw [hl] at hk
      have : (addr + BitVec.ofNat 32 k - addr).toNat = k := by
        rw [BitVec.add_comm, BitVec.add_sub_cancel, BitVec.toNat_ofNat, Nat.mod_eq_of_lt (by omega)]
      exact (hm' _).trans (by rw [this, if_pos hk])
    · rw [hl] at hk
      exact (hm' a).trans (if_neg (by omega))
    · rw [hl]; exact hs' a

/-! ## Control and status registers -/

/-- `csrAccess` on an address outside CSR_SET. -/
theorem csrAccess_of_absent {rd : RegNum} {a : CsrAddr} {new : Word → Word} (h : csrImplemented s a = false) :
    csrAccess s rd a new = .fault (.csrNotImplemented a) := by
  simp [csrAccess, h, raise]

/-- `csrAccess` on an implemented address completes. -/
theorem csrCompletes_of_csrAccess {i : Instr} {rd : RegNum} {a : CsrAddr} {new : Word → Word} {P : Word → Prop}
    (h : exec i s = csrAccess s rd a new) (hi : csrImplemented s a = true) (hv : P (new (readCsr s a))) :
    CsrCompletes i s rd a P := by
  refine ⟨advanceBy Config.ilen (writeCsr (writeReg s rd (readCsr s a)) a (new (readCsr s a))),
    h.trans (by simp [csrAccess, hi]), ?_, ⟨?_, rfl⟩, ?_, ?_, ?_, sameMemory_of_eq (by simp) (by simp),
    by simp [SamePlatform]⟩
  · simp [Config.ilen]
  · intro hr; simp [readReg_writeReg, hr]
  · intro r hr; simp [readReg_writeReg, hr]
  · simpa [readCsr_writeCsr] using hv
  · intro c hc; simp [readCsr_writeCsr, hc]

/-! ## What an instruction can do -/

/-- The state an instruction leaves, the pc aside: the old one, one with its `rd` written, one with its bytes stored, or
one with its `rd` and its CSR written. -/
inductive Effect (i : Instr) (s : State) : State → Prop
  | none : Effect i s s
  | reg (rd : RegNum) (v : Word) (h : destReg i = some rd) : Effect i s (writeReg s rd v)
  | store (addr : Word) (n : Nat) (bs : List Byte) (h : storeTarget s i = some (addr, n)) (hl : bs.length = n)
      (hn : n ≤ 4) (hm : AllMapped s addr n) : Effect i s (storeBytes s (byteAddrs addr n) bs)
  | csr (rd : RegNum) (v : Word) (a : CsrAddr) (w : Word) (hd : destReg i = some rd) (ha : csrOperand i = some a)
      (hi : csrImplemented s a = true) : Effect i s (writeCsr (writeReg s rd v) a w)

theorem effect_of_jumpTo {i : Instr} {s' : State} {a : Word} (he : Effect i s s') (h : jumpTo s' a = .next t) :
    ∃ u, Effect i s u ∧ t = u.setPc t.pc := by
  rcases jumpTo_cases s' a with ⟨-, e⟩ | ⟨-, e⟩ <;> rw [e] at h
  · cases h; exact ⟨s', he, rfl⟩
  · cases h

theorem effect_of_branchIf {i : Instr} {c : Bool} {off : BitVec 13} (h : branchIf c s off = .next t) :
    ∃ u, Effect i s u ∧ t = u.setPc t.pc := by
  cases c
  · cases h; exact ⟨s, .none, rfl⟩
  · exact effect_of_jumpTo .none h

theorem effect_of_loadFrom {i : Instr} {addr : Word} {n : Nat} {ext : Word → Word} {rd : RegNum} {len : Word}
    (hd : destReg i = some rd) (h : loadFrom s addr n ext rd len = .next t) :
    ∃ u, Effect i s u ∧ t = u.setPc t.pc := by
  unfold loadFrom at h
  split at h
  · cases h
  · cases h; exact ⟨_, .reg rd _ hd, rfl⟩

theorem effect_of_storeTo {i : Instr} {addr : Word} {n : Nat} {v len : Word} (hn : n ≤ 4)
    (hd : storeTarget s i = some (addr, n)) (h : storeTo s addr n v len = .next t) :
    ∃ u, Effect i s u ∧ t = u.setPc t.pc := by
  unfold storeTo at h
  rcases memWrite_cases s addr n v with ⟨-, e⟩ | ⟨-, -, e⟩ | ⟨-, h2, e⟩ <;> rw [e] at h <;> cases h
  exact ⟨_, .store addr n _ hd (bytesOfWord_length n v) hn h2, rfl⟩

theorem effect_of_csrAccess {i : Instr} {rd : RegNum} {a : CsrAddr} (new : Word → Word) (hd : destReg i = some rd)
    (ha : csrOperand i = some a) (h : csrAccess s rd a new = .next t) :
    ∃ u, Effect i s u ∧ t = u.setPc t.pc := by
  unfold csrAccess at h
  split at h
  · cases h
  · rename_i hi
    cases h
    exact ⟨_, .csr rd _ a _ hd ha (by simpa using hi), rfl⟩

/-- An instruction that answers a next state has one of the four effects, and sets the pc. -/
theorem exec_effect {i : Instr} (h : exec i s = .next t) : ∃ u, Effect i s u ∧ t = u.setPc t.pc := by
  cases i with
  | jal _ _ | jalr _ _ _ => exact effect_of_jumpTo (.reg _ _ rfl) h
  | beq _ _ _ | bne _ _ _ | blt _ _ _ | bge _ _ _ | bltu _ _ _ | bgeu _ _ _ => exact effect_of_branchIf h
  | lb _ _ _ | lh _ _ _ | lw _ _ _ | lbu _ _ _ | lhu _ _ _ | lwsp _ _ => exact effect_of_loadFrom rfl h
  | sb _ _ _ | sh _ _ _ | sw _ _ _ | swsp _ _ => exact effect_of_storeTo (by decide) rfl h
  | csrrw _ _ rs1 => exact effect_of_csrAccess (fun _ => readReg s rs1) rfl rfl h
  | csrrs _ _ rs1 => exact effect_of_csrAccess (fun old => old ||| readReg s rs1) rfl rfl h
  | csrrc _ _ rs1 => exact effect_of_csrAccess (fun old => old &&& ~~~(readReg s rs1)) rfl rfl h
  | csrrwi _ _ zimm => exact effect_of_csrAccess (fun _ => unsigned5 zimm) rfl rfl h
  | csrrsi _ _ zimm => exact effect_of_csrAccess (fun old => old ||| unsigned5 zimm) rfl rfl h
  | csrrci _ _ zimm => exact effect_of_csrAccess (fun old => old &&& ~~~(unsigned5 zimm)) rfl rfl h
  | auipc _ _ | lui _ _ | addi _ _ _ | slti _ _ _ | sltiu _ _ _ | xori _ _ _ | ori _ _ _ | andi _ _ _ | slli _ _ _
  | srli _ _ _ | srai _ _ _ | add _ _ _ | sub _ _ _ | sll _ _ _ | slt _ _ _ | sltu _ _ _ | xor _ _ _ | srl _ _ _
  | sra _ _ _ | or _ _ _ | and _ _ _ | mul _ _ _ =>
    cases h; exact ⟨_, .reg _ _ rfl, rfl⟩

end Sys2Proof.Machine
end

