-- ==== Sys2Proof/Laws/PerInstr.lean ====
section
/-! SUPPORT. Statements made of every instruction, one lemma per constructor. EncodedLowBits: bits 1..0 of the word of an
instruction are 11 (spec/30_encoding.md R87; every word that ends otherwise is of no row, R92). -/

namespace Sys2Proof.Laws

/-- The word of the instruction, if it has one, ends in 11. -/
def EncodedLowBits.Statement (i : Instr) : Prop := ∀ w, encode i = some w → w.extractLsb' 0 2 = 0b11#2

theorem lowBits_of_some {v : Word} (h : v.extractLsb' 0 2 = 0b11#2) :
    ∀ w, some v = some w → w.extractLsb' 0 2 = 0b11#2 := by
  rintro w ⟨⟩; exact h

/-- The opcode stands in the low seven bits. -/
theorem lowBits_append {n : Nat} (x : BitVec n) (op : BitVec 7) :
    (x ++ op).extractLsb' 0 2 = op.extractLsb' 0 2 := by
  apply BitVec.eq_of_getLsbD_eq
  intro k hk
  simp [BitVec.getLsbD_append, hk, show k < 7 by omega]

theorem lowBits_encodeR (funct7 : BitVec 7) (rs2 rs1 : RegNum) (funct3 : BitVec 3) (rd : RegNum) (op : BitVec 7)
    (h : op.extractLsb' 0 2 = 0b11#2) : (encodeR funct7 rs2 rs1 funct3 rd op).extractLsb' 0 2 = 0b11#2 :=
  (lowBits_append _ op).trans h

theorem lowBits_encodeI (imm : BitVec 12) (rs1 : RegNum) (funct3 : BitVec 3) (rd : RegNum) (op : BitVec 7)
    (h : op.extractLsb' 0 2 = 0b11#2) : (encodeI imm rs1 funct3 rd op).extractLsb' 0 2 = 0b11#2 :=
  (lowBits_append _ op).trans h

theorem lowBits_encodeS (imm : BitVec 12) (rs2 rs1 : RegNum) (funct3 : BitVec 3) (op : BitVec 7)
    (h : op.extractLsb' 0 2 = 0b11#2) : (encodeS imm rs2 rs1 funct3 op).extractLsb' 0 2 = 0b11#2 :=
  (lowBits_append _ op).trans h

theorem lowBits_encodeB (off : BitVec 13) (rs2 rs1 : RegNum) (funct3 : BitVec 3) (op : BitVec 7)
    (h : op.extractLsb' 0 2 = 0b11#2) : (encodeB off rs2 rs1 funct3 op).extractLsb' 0 2 = 0b11#2 :=
  (lowBits_append _ op).trans h

theorem lowBits_encodeU (imm : BitVec 20) (rd : RegNum) (op : BitVec 7) (h : op.extractLsb' 0 2 = 0b11#2) :
    (encodeU imm rd op).extractLsb' 0 2 = 0b11#2 :=
  (lowBits_append _ op).trans h

theorem lowBits_encodeJ (off : BitVec 21) (rd : RegNum) (op : BitVec 7) (h : op.extractLsb' 0 2 = 0b11#2) :
    (encodeJ off rd op).extractLsb' 0 2 = 0b11#2 :=
  (lowBits_append _ op).trans h

theorem EncodedLowBits.auipc (rd : RegNum) (imm : BitVec 20) :
    EncodedLowBits.Statement (.auipc rd imm) :=
  lowBits_of_some (lowBits_encodeU _ _ _ rfl)

theorem EncodedLowBits.lui (rd : RegNum) (imm : BitVec 20) :
    EncodedLowBits.Statement (.lui rd imm) :=
  lowBits_of_some (lowBits_encodeU _ _ _ rfl)

theorem EncodedLowBits.jal (rd : RegNum) (off : BitVec 21) :
    EncodedLowBits.Statement (.jal rd off) :=
  lowBits_of_some (lowBits_encodeJ _ _ _ rfl)

theorem EncodedLowBits.jalr (rd rs1 : RegNum) (imm : BitVec 12) :
    EncodedLowBits.Statement (.jalr rd rs1 imm) :=
  lowBits_of_some (lowBits_encodeI _ _ _ _ _ rfl)

theorem EncodedLowBits.beq (rs1 rs2 : RegNum) (off : BitVec 13) :
    EncodedLowBits.Statement (.beq rs1 rs2 off) :=
  lowBits_of_some (lowBits_encodeB _ _ _ _ _ rfl)

theorem EncodedLowBits.bne (rs1 rs2 : RegNum) (off : BitVec 13) :
    EncodedLowBits.Statement (.bne rs1 rs2 off) :=
  lowBits_of_some (lowBits_encodeB _ _ _ _ _ rfl)

theorem EncodedLowBits.blt (rs1 rs2 : RegNum) (off : BitVec 13) :
    EncodedLowBits.Statement (.blt rs1 rs2 off) :=
  lowBits_of_some (lowBits_encodeB _ _ _ _ _ rfl)

theorem EncodedLowBits.bge (rs1 rs2 : RegNum) (off : BitVec 13) :
    EncodedLowBits.Statement (.bge rs1 rs2 off) :=
  lowBits_of_some (lowBits_encodeB _ _ _ _ _ rfl)

theorem EncodedLowBits.bltu (rs1 rs2 : RegNum) (off : BitVec 13) :
    EncodedLowBits.Statement (.bltu rs1 rs2 off) :=
  lowBits_of_some (lowBits_encodeB _ _ _ _ _ rfl)

theorem EncodedLowBits.bgeu (rs1 rs2 : RegNum) (off : BitVec 13) :
    EncodedLowBits.Statement (.bgeu rs1 rs2 off) :=
  lowBits_of_some (lowBits_encodeB _ _ _ _ _ rfl)

theorem EncodedLowBits.lb (rd rs1 : RegNum) (imm : BitVec 12) :
    EncodedLowBits.Statement (.lb rd rs1 imm) :=
  lowBits_of_some (lowBits_encodeI _ _ _ _ _ rfl)

theorem EncodedLowBits.lh (rd rs1 : RegNum) (imm : BitVec 12) :
    EncodedLowBits.Statement (.lh rd rs1 imm) :=
  lowBits_of_some (lowBits_encodeI _ _ _ _ _ rfl)

theorem EncodedLowBits.lw (rd rs1 : RegNum) (imm : BitVec 12) :
    EncodedLowBits.Statement (.lw rd rs1 imm) :=
  lowBits_of_some (lowBits_encodeI _ _ _ _ _ rfl)

theorem EncodedLowBits.lbu (rd rs1 : RegNum) (imm : BitVec 12) :
    EncodedLowBits.Statement (.lbu rd rs1 imm) :=
  lowBits_of_some (lowBits_encodeI _ _ _ _ _ rfl)

theorem EncodedLowBits.lhu (rd rs1 : RegNum) (imm : BitVec 12) :
    EncodedLowBits.Statement (.lhu rd rs1 imm) :=
  lowBits_of_some (lowBits_encodeI _ _ _ _ _ rfl)

theorem EncodedLowBits.sb (rs1 rs2 : RegNum) (imm : BitVec 12) :
    EncodedLowBits.Statement (.sb rs1 rs2 imm) :=
  lowBits_of_some (lowBits_encodeS _ _ _ _ _ rfl)

theorem EncodedLowBits.sh (rs1 rs2 : RegNum) (imm : BitVec 12) :
    EncodedLowBits.Statement (.sh rs1 rs2 imm) :=
  lowBits_of_some (lowBits_encodeS _ _ _ _ _ rfl)

theorem EncodedLowBits.sw (rs1 rs2 : RegNum) (imm : BitVec 12) :
    EncodedLowBits.Statement (.sw rs1 rs2 imm) :=
  lowBits_of_some (lowBits_encodeS _ _ _ _ _ rfl)

theorem EncodedLowBits.addi (rd rs1 : RegNum) (imm : BitVec 12) :
    EncodedLowBits.Statement (.addi rd rs1 imm) :=
  lowBits_of_some (lowBits_encodeI _ _ _ _ _ rfl)

theorem EncodedLowBits.slti (rd rs1 : RegNum) (imm : BitVec 12) :
    EncodedLowBits.Statement (.slti rd rs1 imm) :=
  lowBits_of_some (lowBits_encodeI _ _ _ _ _ rfl)

theorem EncodedLowBits.sltiu (rd rs1 : RegNum) (imm : BitVec 12) :
    EncodedLowBits.Statement (.sltiu rd rs1 imm) :=
  lowBits_of_some (lowBits_encodeI _ _ _ _ _ rfl)

theorem EncodedLowBits.xori (rd rs1 : RegNum) (imm : BitVec 12) :
    EncodedLowBits.Statement (.xori rd rs1 imm) :=
  lowBits_of_some (lowBits_encodeI _ _ _ _ _ rfl)

theorem EncodedLowBits.ori (rd rs1 : RegNum) (imm : BitVec 12) :
    EncodedLowBits.Statement (.ori rd rs1 imm) :=
  lowBits_of_some (lowBits_encodeI _ _ _ _ _ rfl)

theorem EncodedLowBits.andi (rd rs1 : RegNum) (imm : BitVec 12) :
    EncodedLowBits.Statement (.andi rd rs1 imm) :=
  lowBits_of_some (lowBits_encodeI _ _ _ _ _ rfl)

theorem EncodedLowBits.slli (rd rs1 : RegNum) (shamt : BitVec 5) :
    EncodedLowBits.Statement (.slli rd rs1 shamt) :=
  lowBits_of_some (lowBits_encodeR _ _ _ _ _ _ rfl)

theorem EncodedLowBits.srli (rd rs1 : RegNum) (shamt : BitVec 5) :
    EncodedLowBits.Statement (.srli rd rs1 shamt) :=
  lowBits_of_some (lowBits_encodeR _ _ _ _ _ _ rfl)

theorem EncodedLowBits.srai (rd rs1 : RegNum) (shamt : BitVec 5) :
    EncodedLowBits.Statement (.srai rd rs1 shamt) :=
  lowBits_of_some (lowBits_encodeR _ _ _ _ _ _ rfl)

theorem EncodedLowBits.add (rd rs1 rs2 : RegNum) :
    EncodedLowBits.Statement (.add rd rs1 rs2) :=
  lowBits_of_some (lowBits_encodeR _ _ _ _ _ _ rfl)

theorem EncodedLowBits.sub (rd rs1 rs2 : RegNum) :
    EncodedLowBits.Statement (.sub rd rs1 rs2) :=
  lowBits_of_some (lowBits_encodeR _ _ _ _ _ _ rfl)

theorem EncodedLowBits.sll (rd rs1 rs2 : RegNum) :
    EncodedLowBits.Statement (.sll rd rs1 rs2) :=
  lowBits_of_some (lowBits_encodeR _ _ _ _ _ _ rfl)

theorem EncodedLowBits.slt (rd rs1 rs2 : RegNum) :
    EncodedLowBits.Statement (.slt rd rs1 rs2) :=
  lowBits_of_some (lowBits_encodeR _ _ _ _ _ _ rfl)

theorem EncodedLowBits.sltu (rd rs1 rs2 : RegNum) :
    EncodedLowBits.Statement (.sltu rd rs1 rs2) :=
  lowBits_of_some (lowBits_encodeR _ _ _ _ _ _ rfl)

theorem EncodedLowBits.xor (rd rs1 rs2 : RegNum) :
    EncodedLowBits.Statement (.xor rd rs1 rs2) :=
  lowBits_of_some (lowBits_encodeR _ _ _ _ _ _ rfl)

theorem EncodedLowBits.srl (rd rs1 rs2 : RegNum) :
    EncodedLowBits.Statement (.srl rd rs1 rs2) :=
  lowBits_of_some (lowBits_encodeR _ _ _ _ _ _ rfl)

theorem EncodedLowBits.sra (rd rs1 rs2 : RegNum) :
    EncodedLowBits.Statement (.sra rd rs1 rs2) :=
  lowBits_of_some (lowBits_encodeR _ _ _ _ _ _ rfl)

theorem EncodedLowBits.or (rd rs1 rs2 : RegNum) :
    EncodedLowBits.Statement (.or rd rs1 rs2) :=
  lowBits_of_some (lowBits_encodeR _ _ _ _ _ _ rfl)

theorem EncodedLowBits.and (rd rs1 rs2 : RegNum) :
    EncodedLowBits.Statement (.and rd rs1 rs2) :=
  lowBits_of_some (lowBits_encodeR _ _ _ _ _ _ rfl)

theorem EncodedLowBits.csrrw (rd : RegNum) (csr : CsrAddr) (rs1 : RegNum) :
    EncodedLowBits.Statement (.csrrw rd csr rs1) :=
  lowBits_of_some (lowBits_encodeI _ _ _ _ _ rfl)

theorem EncodedLowBits.csrrs (rd : RegNum) (csr : CsrAddr) (rs1 : RegNum) :
    EncodedLowBits.Statement (.csrrs rd csr rs1) :=
  lowBits_of_some (lowBits_encodeI _ _ _ _ _ rfl)

theorem EncodedLowBits.csrrc (rd : RegNum) (csr : CsrAddr) (rs1 : RegNum) :
    EncodedLowBits.Statement (.csrrc rd csr rs1) :=
  lowBits_of_some (lowBits_encodeI _ _ _ _ _ rfl)

theorem EncodedLowBits.csrrwi (rd : RegNum) (csr : CsrAddr) (zimm : BitVec 5) :
    EncodedLowBits.Statement (.csrrwi rd csr zimm) :=
  lowBits_of_some (lowBits_encodeI _ _ _ _ _ rfl)

theorem EncodedLowBits.csrrsi (rd : RegNum) (csr : CsrAddr) (zimm : BitVec 5) :
    EncodedLowBits.Statement (.csrrsi rd csr zimm) :=
  lowBits_of_some (lowBits_encodeI _ _ _ _ _ rfl)

theorem EncodedLowBits.csrrci (rd : RegNum) (csr : CsrAddr) (zimm : BitVec 5) :
    EncodedLowBits.Statement (.csrrci rd csr zimm) :=
  lowBits_of_some (lowBits_encodeI _ _ _ _ _ rfl)

theorem EncodedLowBits.mul (rd rs1 rs2 : RegNum) :
    EncodedLowBits.Statement (.mul rd rs1 rs2) :=
  lowBits_of_some (lowBits_encodeR _ _ _ _ _ _ rfl)

theorem EncodedLowBits.swsp (rsData : RegNum) (uimm : Word) :
    EncodedLowBits.Statement (.swsp rsData uimm) :=
  fun _ h => nomatch h

theorem EncodedLowBits.lwsp (rd : RegNum) (uimm : Word) :
    EncodedLowBits.Statement (.lwsp rd uimm) :=
  fun _ h => nomatch h

end Sys2Proof.Laws
end

