-- ==== Sys2Proof/Tests/Slice0.lean ====
section
/-! SUPPORT. Tests. Words and results are those of the rules' own examples in spec/40_upper_immediate.md to
spec/48_multiply.md and of spec/95_test_vectors.md, unless a comment says otherwise. The last part shows for each
statement with hypotheses a state and operands that meet them. -/

namespace Sys2Proof.Tests

open Sys2Proof.Machine

/-! ## Helpers -/

/-- A state with these registers, CSR cells and memory bytes; every address mapped, every CSR implemented. -/
def start (pc : Word) (regs : List (RegNum × Word)) (csrs : CsrFile) (mem : Memory) : State :=
  regs.foldl (fun s e => writeReg s e.1 e.2)
    (State.launch Config.resetPlatform pc (Vector.replicate 32 0#32) csrs mem)

/-- The same with these runs of memory and no CSR. -/
def small (memMap : List Config.Span) (pc : Word) (regs : List (RegNum × Word)) (mem : Memory) : State :=
  (start pc regs [] mem).setPlatform ⟨memMap, []⟩

/-- The memory of the spec's load examples. -/
def dataBytes : Memory := [(0x2000, 0xEF#8), (0x2001, 0xCD#8), (0x2002, 0xAB#8), (0x2003, 0x89#8)]

/-- The memory of the spec's store examples. -/
def zeroBytes : Memory := [(0x2000, 0#8), (0x2001, 0#8), (0x2002, 0#8), (0x2003, 0#8)]

/-- One step on a word placed at the pc. -/
def runWord (w : Nat) (s : State) : Result := step (s.withFetchWord 32 w)

/-- What a result says of its next state. -/
def after {α : Type} (f : State → α) : Result → Option α
  | .next t => some (f t)
  | .fault _ | .refused _ => none

/-- The fault of a result. -/
def stop : Result → Option Fault
  | .fault f => some f
  | .next _ | .refused _ => none

/-- The refusal of a result. -/
def refusal : Result → Option Refusal
  | .refused r => some r
  | .next _ | .fault _ => none

/-- The bytes from an address. -/
def bytesFrom (s : State) (a : Word) (n : Nat) : List (Option Byte) := (byteAddrs a n).map (memByte s)

/-! ## Well-formed instructions -/

theorem test_wellFormed_accepts : wellFormed (.beq 1 2 16) = true ∧ wellFormed (.jal 1 8) = true := by decide

/-- An odd branch offset is refused. -/
theorem test_wellFormed_branch_offset : operandsOk (.beq 1 2 3) = false ∧ operandsOk (.bne 1 2 3) = false ∧
    operandsOk (.blt 1 2 3) = false ∧ operandsOk (.bge 1 2 3) = false ∧ operandsOk (.bltu 1 2 3) = false ∧
    operandsOk (.bgeu 1 2 3) = false := by decide

/-- An odd JAL offset is refused. -/
theorem test_wellFormed_jal_offset : operandsOk (.jal 1 3) = false := by decide

/-- SWSP and LWSP have no word. -/
theorem test_wellFormed_no_encoding : hasEncoding (.swsp 6 4) = false ∧ hasEncoding (.lwsp 7 4) = false ∧
    encode (.swsp 6 4) = none ∧ encode (.lwsp 7 4) = none := by decide

/-! ## Decoding: each word written out field by field in the layout of its format -/

theorem test_decode_auipc :
    decode 0b00010010001101000101_00101_0010111#32 = .instr (.auipc 5 0x12345) := by decide

theorem test_decode_lui :
    decode 0b00010010001101000101_00111_0110111#32 = .instr (.lui 7 0x12345) := by decide

theorem test_decode_jal :
    decode 0b11111111100111111111_00001_1101111#32 = .instr (.jal 1 (BitVec.ofInt 21 (-8))) := by decide

theorem test_decode_jalr :
    decode 0b111111111100_00101_000_00001_1100111#32 = .instr (.jalr 1 5 (BitVec.ofInt 12 (-4))) := by decide

theorem test_decode_beq :
    decode 0b0000000_00110_00101_000_10000_1100011#32 = .instr (.beq 5 6 16) := by decide

theorem test_decode_bne :
    decode 0b1111111_00000_00101_001_11001_1100011#32 = .instr (.bne 5 0 (BitVec.ofInt 13 (-8))) := by decide

theorem test_decode_blt :
    decode 0b0000000_00110_00101_100_10000_1100011#32 = .instr (.blt 5 6 16) := by decide

theorem test_decode_bge :
    decode 0b0000000_00110_00101_101_10000_1100011#32 = .instr (.bge 5 6 16) := by decide

theorem test_decode_bltu :
    decode 0b0000000_00110_00101_110_10000_1100011#32 = .instr (.bltu 5 6 16) := by decide

theorem test_decode_bgeu :
    decode 0b0000000_00110_00101_111_10000_1100011#32 = .instr (.bgeu 5 6 16) := by decide

theorem test_decode_lb :
    decode 0b000000000000_00101_000_00111_0000011#32 = .instr (.lb 7 5 0) := by decide

theorem test_decode_lh :
    decode 0b000000000010_00101_001_00111_0000011#32 = .instr (.lh 7 5 2) := by decide

theorem test_decode_lw :
    decode 0b000000000010_00101_010_00111_0000011#32 = .instr (.lw 7 5 2) := by decide

theorem test_decode_lbu :
    decode 0b000000000011_00101_100_00111_0000011#32 = .instr (.lbu 7 5 3) := by decide

theorem test_decode_lhu :
    decode 0b000000000010_00101_101_00111_0000011#32 = .instr (.lhu 7 5 2) := by decide

theorem test_decode_sb :
    decode 0b0000000_00110_00101_000_00011_0100011#32 = .instr (.sb 5 6 3) := by decide

theorem test_decode_sh :
    decode 0b0000000_00110_00101_001_00010_0100011#32 = .instr (.sh 5 6 2) := by decide

theorem test_decode_sw :
    decode 0b0000000_00110_00101_010_00100_0100011#32 = .instr (.sw 5 6 4) := by decide

theorem test_decode_addi :
    decode 0b111111111111_00101_000_00110_0010011#32 = .instr (.addi 6 5 (BitVec.ofInt 12 (-1))) := by decide

theorem test_decode_slti :
    decode 0b111111111111_00101_010_00110_0010011#32 = .instr (.slti 6 5 (BitVec.ofInt 12 (-1))) := by decide

theorem test_decode_sltiu :
    decode 0b111111111111_00101_011_00110_0010011#32 = .instr (.sltiu 6 5 (BitVec.ofInt 12 (-1))) := by decide

theorem test_decode_xori :
    decode 0b111111111111_00101_100_00110_0010011#32 = .instr (.xori 6 5 (BitVec.ofInt 12 (-1))) := by decide

theorem test_decode_ori :
    decode 0b010101010101_00101_110_00110_0010011#32 = .instr (.ori 6 5 0x555) := by decide

theorem test_decode_andi :
    decode 0b000011111111_00101_111_00110_0010011#32 = .instr (.andi 6 5 0xFF) := by decide

theorem test_decode_slli :
    decode 0b0000000_00001_00101_001_00110_0010011#32 = .instr (.slli 6 5 1) := by decide

theorem test_decode_srli :
    decode 0b0000000_00001_00101_101_00110_0010011#32 = .instr (.srli 6 5 1) := by decide

theorem test_decode_srai :
    decode 0b0100000_00100_00101_101_00110_0010011#32 = .instr (.srai 6 5 4) := by decide

theorem test_decode_add :
    decode 0b0000000_00110_00101_000_00111_0110011#32 = .instr (.add 7 5 6) := by decide

theorem test_decode_sub :
    decode 0b0100000_00110_00101_000_00111_0110011#32 = .instr (.sub 7 5 6) := by decide

theorem test_decode_sll :
    decode 0b0000000_00110_00101_001_00111_0110011#32 = .instr (.sll 7 5 6) := by decide

theorem test_decode_slt :
    decode 0b0000000_00110_00101_010_00111_0110011#32 = .instr (.slt 7 5 6) := by decide

theorem test_decode_sltu :
    decode 0b0000000_00110_00101_011_00111_0110011#32 = .instr (.sltu 7 5 6) := by decide

theorem test_decode_xor :
    decode 0b0000000_00110_00101_100_00111_0110011#32 = .instr (.xor 7 5 6) := by decide

theorem test_decode_srl :
    decode 0b0000000_00110_00101_101_00111_0110011#32 = .instr (.srl 7 5 6) := by decide

theorem test_decode_sra :
    decode 0b0100000_00110_00101_101_00111_0110011#32 = .instr (.sra 7 5 6) := by decide

theorem test_decode_or :
    decode 0b0000000_00110_00101_110_00111_0110011#32 = .instr (.or 7 5 6) := by decide

theorem test_decode_and :
    decode 0b0000000_00110_00101_111_00111_0110011#32 = .instr (.and 7 5 6) := by decide

theorem test_decode_csrrw :
    decode 0b001101000000_00101_001_00110_1110011#32 = .instr (.csrrw 6 0x340 5) := by decide

theorem test_decode_csrrs :
    decode 0b001101000000_00101_010_00110_1110011#32 = .instr (.csrrs 6 0x340 5) := by decide

theorem test_decode_csrrc :
    decode 0b001101000000_00101_011_00110_1110011#32 = .instr (.csrrc 6 0x340 5) := by decide

theorem test_decode_csrrwi :
    decode 0b001101000000_11111_101_00110_1110011#32 = .instr (.csrrwi 6 0x340 31) := by decide

theorem test_decode_csrrsi :
    decode 0b001101000000_11010_110_00110_1110011#32 = .instr (.csrrsi 6 0x340 0x1A) := by decide

theorem test_decode_csrrci :
    decode 0b001101000000_00101_111_00110_1110011#32 = .instr (.csrrci 6 0x340 5) := by decide

theorem test_decode_mul :
    decode 0b0000001_00110_00101_000_00111_0110011#32 = .instr (.mul 7 5 6) := by decide

/-- The host's reading of a table word. -/
theorem test_decodeTableWord : decodeTableWord 32 0x006283B3 = some (.add 7 5 6) := by decide

/-! ## One step -/

theorem test_auipc :
    after (fun t => (readReg t 5, t.pc)) (runWord 0x12345297 (start 0x1000#32 [] [] []))
      = some (0x12346000#32, 0x00001004#32) := by decide

theorem test_auipc_wraps :
    after (fun t => (readReg t 5, t.pc)) (runWord 0x00001297 (start 0xFFFFF000#32 [(5, 0x55)] [] []))
      = some (0x00000000#32, 0xFFFFF004#32) := by decide

theorem test_lui :
    after (fun t => (readReg t 7, t.pc)) (runWord 0x123453B7 (start 0x1000#32 [] [] []))
      = some (0x12345000#32, 0x00001004#32) := by decide

theorem test_lui_to_x0 :
    after (fun t => (readReg t 0, t.pc)) (runWord 0x12345037 (start 0x1000#32 [] [] []))
      = some (0x00000000#32, 0x00001004#32) := by decide

theorem test_jal_backward :
    after (fun t => (readReg t 1, t.pc)) (runWord 0xFF9FF0EF (start 0x1000#32 [] [] []))
      = some (0x00001004#32, 0x00000FF8#32) := by decide

theorem test_jal_misaligned :
    stop (runWord 0x002000EF (start 0x1000#32 [(1, 0x55)] [] [])) = some (.misalignedTarget 0x1002#32) := by decide

theorem test_jalr_rd_is_rs1 :
    after (fun t => (readReg t 5, t.pc)) (runWord 0x008282E7 (start 0x1000#32 [(5, 0x2000)] [] []))
      = some (0x00001004#32, 0x00002008#32) := by decide

theorem test_jalr_keeps_bit_0 :
    stop (runWord 0x001280E7 (start 0x1000#32 [(5, 0x2000)] [] [])) = some (.misalignedTarget 0x2001#32) := by decide

theorem test_beq_taken :
    after (fun t => (readReg t 5, t.pc)) (runWord 0x00628863 (start 0x1000#32 [(5, 5), (6, 5)] [] []))
      = some (0x00000005#32, 0x00001010#32) := by decide

theorem test_beq_not_taken :
    after (fun t => (readReg t 6, t.pc)) (runWord 0x00628863 (start 0x1000#32 [(5, 0xffffffff), (6, 1)] [] []))
      = some (0x00000001#32, 0x00001004#32) := by decide

theorem test_bne_taken :
    after (fun t => (readReg t 5, t.pc)) (runWord 0xFE029CE3 (start 0x10#32 [(5, 4)] [] []))
      = some (0x00000004#32, 0x00000008#32) := by decide

theorem test_bne_not_taken :
    after (fun t => (readReg t 5, t.pc)) (runWord 0xFE029CE3 (start 0x10#32 [] [] []))
      = some (0x00000000#32, 0x00000014#32) := by decide

theorem test_blt_taken :
    after (fun t => (readReg t 6, t.pc)) (runWord 0x0062C863 (start 0x1000#32 [(5, 0xffffffff), (6, 1)] [] []))
      = some (0x00000001#32, 0x00001010#32) := by decide

theorem test_blt_not_taken :
    after (fun t => (readReg t 5, t.pc)) (runWord 0x0062C863 (start 0x1000#32 [(5, 1), (6, 0xffffffff)] [] []))
      = some (0x00000001#32, 0x00001004#32) := by decide

theorem test_bge_equal :
    after (fun t => (readReg t 5, t.pc)) (runWord 0x0062D863 (start 0x1000#32 [(5, 5), (6, 5)] [] []))
      = some (0x00000005#32, 0x00001010#32) := by decide

theorem test_bge_not_taken :
    after (fun t => (readReg t 5, t.pc)) (runWord 0x0062D863 (start 0x1000#32 [(5, 0x80000000), (6, 0x7fffffff)] [] []))
      = some (0x80000000#32, 0x00001004#32) := by decide

theorem test_bltu_taken :
    after (fun t => (readReg t 5, t.pc)) (runWord 0x0062E863 (start 0x1000#32 [(5, 1), (6, 0xffffffff)] [] []))
      = some (0x00000001#32, 0x00001010#32) := by decide

theorem test_bltu_not_taken :
    after (fun t => (readReg t 6, t.pc)) (runWord 0x0062E863 (start 0x1000#32 [(5, 0xffffffff), (6, 1)] [] []))
      = some (0x00000001#32, 0x00001004#32) := by decide

theorem test_bgeu_taken :
    after (fun t => (readReg t 6, t.pc)) (runWord 0x0062F863 (start 0x1000#32 [(5, 0xffffffff), (6, 1)] [] []))
      = some (0x00000001#32, 0x00001010#32) := by decide

theorem test_bgeu_not_taken :
    after (fun t => (readReg t 5, t.pc)) (runWord 0x0062F863 (start 0x1000#32 [(5, 1), (6, 0xffffffff)] [] []))
      = some (0x00000001#32, 0x00001004#32) := by decide

theorem test_lb :
    after (fun t => (readReg t 7, t.pc)) (runWord 0x00028383 (start 0x1000#32 [(5, 0x2000)] [] dataBytes))
      = some (0xFFFFFFEF#32, 0x00001004#32) := by decide

theorem test_lb_unwritten :
    stop (runWord 0x00028383 (start 0x1000#32 [(5, 0x3000)] [] dataBytes)) = some (.unwrittenRead 0x3000#32) := by decide

theorem test_lh :
    after (fun t => (readReg t 7, t.pc)) (runWord 0x00229383 (start 0x1000#32 [(5, 0x2000)] [] dataBytes))
      = some (0xFFFF89AB#32, 0x00001004#32) := by decide

theorem test_lh_misaligned :
    stop (runWord 0x00129383 (start 0x1000#32 [(5, 0x2000)] [] dataBytes)) = some (.misalignedLoad 0x2001#32) := by decide

theorem test_lw :
    after (fun t => (readReg t 7, t.pc)) (runWord 0x0002A383 (start 0x1000#32 [(5, 0x2000)] [] dataBytes))
      = some (0x89ABCDEF#32, 0x00001004#32) := by decide

theorem test_lw_misaligned :
    stop (runWord 0x0022A383 (start 0x1000#32 [(5, 0x2000)] [] dataBytes)) = some (.misalignedLoad 0x2002#32) := by decide

theorem test_lbu :
    after (fun t => (readReg t 7, t.pc)) (runWord 0x0032C383 (start 0x1000#32 [(5, 0x2000)] [] dataBytes))
      = some (0x00000089#32, 0x00001004#32) := by decide

theorem test_lhu :
    after (fun t => (readReg t 7, t.pc)) (runWord 0x0022D383 (start 0x1000#32 [(5, 0x2000)] [] dataBytes))
      = some (0x000089AB#32, 0x00001004#32) := by decide

theorem test_sb :
    after (fun t => bytesFrom t 0x2000#32 4) (runWord 0x006281A3 (start 0x1000#32 [(5, 0x2000), (6, 0x12345678)] [] zeroBytes))
      = some [some 0x00#8, some 0x00#8, some 0x00#8, some 0x78#8] := by decide

theorem test_sh :
    after (fun t => bytesFrom t 0x2000#32 4) (runWord 0x00629123 (start 0x1000#32 [(5, 0x2000), (6, 0x12345678)] [] zeroBytes))
      = some [some 0x00#8, some 0x00#8, some 0x78#8, some 0x56#8] := by decide

theorem test_sh_misaligned :
    stop (runWord 0x006290A3 (start 0x1000#32 [(5, 0x2000)] [] [])) = some (.misalignedStore 0x2001#32) := by decide

theorem test_sw :
    after (fun t => bytesFrom t 0x2004#32 4) (runWord 0x0062A223 (start 0x1000#32 [(5, 0x2000), (6, 0x12345678)] [] zeroBytes))
      = some [some 0x78#8, some 0x56#8, some 0x34#8, some 0x12#8] := by decide

theorem test_addi :
    after (fun t => (readReg t 6, t.pc)) (runWord 0xFFF28313 (start 0x1000#32 [] [] []))
      = some (0xFFFFFFFF#32, 0x00001004#32) := by decide

theorem test_addi_rd_is_rs1 :
    after (fun t => (readReg t 5, t.pc)) (runWord 0x00528293 (start 0x1000#32 [(5, 0xa)] [] []))
      = some (0x0000000F#32, 0x00001004#32) := by decide

theorem test_slti_negative :
    after (fun t => (readReg t 6, t.pc)) (runWord 0x0002A313 (start 0x1000#32 [(5, 0xffffffff)] [] []))
      = some (0x00000001#32, 0x00001004#32) := by decide

theorem test_slti_equal :
    after (fun t => (readReg t 6, t.pc)) (runWord 0xFFF2A313 (start 0x1000#32 [(5, 0xffffffff)] [] []))
      = some (0x00000000#32, 0x00001004#32) := by decide

theorem test_sltiu_sign_extends :
    after (fun t => (readReg t 6, t.pc)) (runWord 0xFFF2B313 (start 0x1000#32 [(5, 0xfffffffe)] [] []))
      = some (0x00000001#32, 0x00001004#32) := by decide

theorem test_sltiu_zero :
    after (fun t => (readReg t 6, t.pc)) (runWord 0x0002B313 (start 0x1000#32 [] [] []))
      = some (0x00000000#32, 0x00001004#32) := by decide

theorem test_xori :
    after (fun t => (readReg t 6, t.pc)) (runWord 0xFFF2C313 (start 0x1000#32 [(5, 0x12345678)] [] []))
      = some (0xEDCBA987#32, 0x00001004#32) := by decide

theorem test_ori :
    after (fun t => (readReg t 6, t.pc)) (runWord 0x5552E313 (start 0x1000#32 [(5, 0xaaa)] [] []))
      = some (0x00000FFF#32, 0x00001004#32) := by decide

theorem test_andi :
    after (fun t => (readReg t 6, t.pc)) (runWord 0x0FF2F313 (start 0x1000#32 [(5, 0x12345678)] [] []))
      = some (0x00000078#32, 0x00001004#32) := by decide

theorem test_slli :
    after (fun t => (readReg t 6, t.pc)) (runWord 0x00129313 (start 0x1000#32 [(5, 0x80000001)] [] []))
      = some (0x00000002#32, 0x00001004#32) := by decide

theorem test_srli :
    after (fun t => (readReg t 6, t.pc)) (runWord 0x0012D313 (start 0x1000#32 [(5, 0x80000001)] [] []))
      = some (0x40000000#32, 0x00001004#32) := by decide

theorem test_srai :
    after (fun t => (readReg t 6, t.pc)) (runWord 0x4012D313 (start 0x1000#32 [(5, 0x80000001)] [] []))
      = some (0xC0000000#32, 0x00001004#32) := by decide

theorem test_shift_with_bit_25_is_illegal :
    stop (runWord 0x0202D313 (start 0x1000#32 [] [] [])) = some (.illegalInstruction 0x0202D313#32) := by decide

theorem test_add_wraps :
    after (fun t => (readReg t 7, t.pc)) (runWord 0x006283B3 (start 0x1000#32 [(5, 0x7fffffff), (6, 1)] [] []))
      = some (0x80000000#32, 0x00001004#32) := by decide

theorem test_sub :
    after (fun t => (readReg t 7, t.pc)) (runWord 0x406283B3 (start 0x1000#32 [(6, 1)] [] []))
      = some (0xFFFFFFFF#32, 0x00001004#32) := by decide

theorem test_sll :
    after (fun t => (readReg t 7, t.pc)) (runWord 0x006293B3 (start 0x1000#32 [(5, 1), (6, 0x1f)] [] []))
      = some (0x80000000#32, 0x00001004#32) := by decide

theorem test_sll_count_32 :
    after (fun t => (readReg t 7, t.pc)) (runWord 0x006293B3 (start 0x1000#32 [(5, 1), (6, 0x20)] [] []))
      = some (0x00000001#32, 0x00001004#32) := by decide

theorem test_slt :
    after (fun t => (readReg t 7, t.pc)) (runWord 0x0062A3B3 (start 0x1000#32 [(5, 0xffffffff)] [] []))
      = some (0x00000001#32, 0x00001004#32) := by decide

theorem test_sltu :
    after (fun t => (readReg t 7, t.pc)) (runWord 0x0062B3B3 (start 0x1000#32 [(6, 0xffffffff)] [] []))
      = some (0x00000001#32, 0x00001004#32) := by decide

theorem test_xor :
    after (fun t => (readReg t 7, t.pc)) (runWord 0x0062C3B3 (start 0x1000#32 [(5, 0xff00ff00), (6, 0xff00ff0)] [] []))
      = some (0xF0F0F0F0#32, 0x00001004#32) := by decide

theorem test_or :
    after (fun t => (readReg t 7, t.pc)) (runWord 0x0062E3B3 (start 0x1000#32 [(5, 0xff00ff00), (6, 0xff00ff0)] [] []))
      = some (0xFFF0FFF0#32, 0x00001004#32) := by decide

theorem test_and :
    after (fun t => (readReg t 7, t.pc)) (runWord 0x0062F3B3 (start 0x1000#32 [(5, 0xff00ff00), (6, 0xff00ff0)] [] []))
      = some (0x0F000F00#32, 0x00001004#32) := by decide

theorem test_srl :
    after (fun t => (readReg t 7, t.pc)) (runWord 0x0062D3B3 (start 0x1000#32 [(5, 0xf0000000), (6, 0x24)] [] []))
      = some (0x0F000000#32, 0x00001004#32) := by decide

theorem test_sra :
    after (fun t => (readReg t 7, t.pc)) (runWord 0x4062D3B3 (start 0x1000#32 [(5, 0xf0000000), (6, 0x24)] [] []))
      = some (0xFF000000#32, 0x00001004#32) := by decide

theorem test_csrrw :
    after (fun t => (readReg t 6, readCsr t 0x340))
      (runWord 0x34029373 (start 0x1000#32 [(5, 0x12345678)] [(0x340, 0x0000A5A5#32)] []))
      = some (0x0000A5A5#32, 0x12345678#32) := by decide

theorem test_csrrs :
    after (fun t => (readReg t 6, readCsr t 0x340))
      (runWord 0x3402A373 (start 0x1000#32 [(5, 0xffff0000)] [(0x340, 0x0000A5A5#32)] []))
      = some (0x0000A5A5#32, 0xFFFFA5A5#32) := by decide

theorem test_csrrs_rd_is_rs1 :
    after (fun t => (readReg t 5, readCsr t 0x340))
      (runWord 0x3402A2F3 (start 0x1000#32 [(5, 0xf)] [(0x340, 0x0000A5A5#32)] []))
      = some (0x0000A5A5#32, 0x0000A5AF#32) := by decide

theorem test_csrrc :
    after (fun t => (readReg t 6, readCsr t 0x340))
      (runWord 0x3402B373 (start 0x1000#32 [(5, 0xff)] [(0x340, 0x0000A5A5#32)] []))
      = some (0x0000A5A5#32, 0x0000A500#32) := by decide

theorem test_csrrwi :
    after (fun t => (readReg t 6, readCsr t 0x340))
      (runWord 0x340FD373 (start 0x1000#32 [] [(0x340, 0x0000A5A5#32)] []))
      = some (0x0000A5A5#32, 0x0000001F#32) := by decide

theorem test_csrrsi :
    after (fun t => (readReg t 6, readCsr t 0x340))
      (runWord 0x340D6373 (start 0x1000#32 [] [(0x340, 0x0000A5A5#32)] []))
      = some (0x0000A5A5#32, 0x0000A5BF#32) := by decide

theorem test_csrrci :
    after (fun t => (readReg t 6, readCsr t 0x340))
      (runWord 0x3402F373 (start 0x1000#32 [] [(0x340, 0x0000A5A5#32)] []))
      = some (0x0000A5A5#32, 0x0000A5A0#32) := by decide

theorem test_csrrci_keeps_high_bits :
    after (fun t => (readReg t 6, readCsr t 0x340))
      (runWord 0x340FF373 (start 0x1000#32 [] [(0x340, 0xFFFFFFFF#32)] []))
      = some (0xFFFFFFFF#32, 0xFFFFFFE0#32) := by decide

theorem test_mul :
    after (fun t => (readReg t 7, t.pc)) (runWord 0x026283B3 (start 0x1000#32 [(5, 3), (6, 7)] [] []))
      = some (0x00000015#32, 0x00001004#32) := by decide

theorem test_mul_wraps :
    after (fun t => (readReg t 7, t.pc)) (runWord 0x026283B3 (start 0x1000#32 [(5, 0xdeadbeef), (6, 0xcafebabe)] [] []))
      = some (0x88CF5B62#32, 0x00001004#32) := by decide

/-- SWSP and LWSP have no word and no example in the spec; the values follow spec/49_stack_pointer.md R216, R217. -/
theorem test_swsp :
    after (fun t => (bytesFrom t 0x2004#32 4, readReg t 2))
      (exec (.swsp 6 4) (start 0x1000#32 [(2, 0x2000), (6, 0x12345678)] [] []))
      = some ([some 0x78#8, some 0x56#8, some 0x34#8, some 0x12#8], 0x2000#32) := by decide

theorem test_lwsp :
    after (fun t => (readReg t 7, readReg t 2)) (exec (.lwsp 7 4) (start 0x1000#32 [(2, 0x1FFC)] [] dataBytes))
      = some (0x89ABCDEF#32, 0x1FFC#32) := by decide

theorem test_unknown_word :
    refusal (runWord 0x0000C02A (start 0x1000#32 [] [] [])) = some (.unknownEncoding 0x0000C02A#32) := by decide

/-- Reset memory lists nothing, so the first step from reset stops (log entry 10). -/
theorem test_first_step_from_reset : stop (step State.reset) = some (.unwrittenRead 0#32) := by decide

/-! ## The statements' hypotheses are met -/

/-- ADDI x0, x0, 0 at the top of the address space, the pc there. -/
def nopAtTop : State :=
  start 0xFFFFFFFC#32 [] [] [(0xFFFFFFFC, 0x13#8), (0xFFFFFFFD, 0#8), (0xFFFFFFFE, 0#8), (0xFFFFFFFF, 0#8)]

/-- The pc at four bytes of which the last holds no value. -/
def threeBytes : State :=
  start 0x1000#32 [] [] [(0x1000, 0x13#8), (0x1001, 0#8), (0x1002, 0#8)]

/-- A byte at the top of the address space. -/
def byteAtTop : State :=
  start 0x1000#32 [] [] [(0xFFFFFFFF, 0x80#8)]

/-- A halfword there. -/
def halfAtTop : State :=
  start 0x1000#32 [] [] [(0xFFFFFFFE, 0x34#8), (0xFFFFFFFF, 0x80#8)]

/-- A word there. -/
def wordAtTop : State :=
  start 0x1000#32 [] [] [(0xFFFFFFFC, 1#8), (0xFFFFFFFD, 2#8), (0xFFFFFFFE, 3#8), (0xFFFFFFFF, 4#8)]

/-- A mapped word whose last byte holds no value. -/
def lastMissing : State :=
  small [⟨0x2000, 4⟩] 0x1000#32 [] [(0x2000, 1#8), (0x2001, 1#8), (0x2002, 1#8)]

/-- A mapped halfword whose second byte holds no value. -/
def secondMissing : State :=
  small [⟨0x2000, 2⟩] 0x1000#32 [] [(0x2000, 1#8)]

/-- A word four bytes above SP. -/
def atSp : State :=
  start 0x1000#32 [(2, 0x1FFC)] [] [(0x2000, 1#8), (0x2001, 2#8), (0x2002, 3#8), (0x2003, 4#8)]

/-- MEM_MAP is `n` bytes from 0x2000, which x[2] and x[5] name; none holds a value. -/
def mapping (n : Nat) : State := small [⟨0x2000, n⟩] 0x1000#32 [(2, 0x2000), (5, 0x2000)] []

/-- The pc at 0x1000, nothing else set. -/
def blank : State := start 0x1000#32 [] [] []

theorem witness_DecodeOfEncode : wellFormed (.jal 1 1048574) = true ∧ wellFormed (.bgeu 31 0 4094) = true ∧
    wellFormed (.csrrci 31 0xFFF 31) = true := by decide

theorem witness_EncodeOfDecode : decode 0x006283B3#32 = .instr (.add 7 5 6) := by decide

/-- A step that fetches an invalid shift. -/
theorem witness_InvalidShiftsAreIllegal :
    fetch (blank.withFetchWord 32 0x0202D313) = .next 0x0202D313#32 ∧
    decode 0x0202D313#32 = .illegalInstruction := ⟨rfl, by decide⟩

/-- A step that fetches a word without a meaning. -/
theorem witness_UnlistedWordsAreUnknown_step :
    fetch (blank.withFetchWord 32 0x0000C02A) = .next 0x0000C02A#32 ∧
    decode 0x0000C02A#32 = .unknownEncoding := ⟨rfl, by decide⟩

/-- A word for each clause of the list, in its order, at an end of the clause's range. -/
theorem witness_UnlistedWordsAreUnknown_clauses :
    (0x00000002#32).extractLsb' 0 2 ≠ 0b11#2 ∧
    (0x0FF0000F#32).extractLsb' 0 7 = 0b0001111#7 ∧
    ((0x00004073#32).extractLsb' 0 7 = 0b1110011#7 ∧ (0x00004073#32).extractLsb' 12 3 = 0b100#3) ∧
    ((0x02001033#32).extractLsb' 0 7 = 0b0110011#7 ∧ (0x02001033#32).extractLsb' 25 7 = 0b0000001#7 ∧
      (0x02001033#32).extractLsb' 12 3 ≠ 0b000#3) ∧
    ((0x04000033#32).extractLsb' 0 7 = 0b0110011#7 ∧ (0x04000033#32).extractLsb' 25 7 = 0b0000010#7) ∧
    ((0x40007033#32).extractLsb' 0 7 = 0b0110011#7 ∧ (0x40007033#32).extractLsb' 25 7 = 0b0100000#7 ∧
      (0x40007033#32).extractLsb' 12 3 = 0b111#3) ∧
    ((0x00003063#32).extractLsb' 0 7 = 0b1100011#7 ∧ (0x00003063#32).extractLsb' 12 3 = 0b011#3) ∧
    ((0x00007003#32).extractLsb' 0 7 = 0b0000011#7 ∧ (0x00007003#32).extractLsb' 12 3 = 0b111#3) ∧
    ((0x00003023#32).extractLsb' 0 7 = 0b0100011#7 ∧ 0b011#3 ≤ (0x00003023#32).extractLsb' 12 3) ∧
    ((0x00007067#32).extractLsb' 0 7 = 0b1100111#7 ∧ (0x00007067#32).extractLsb' 12 3 ≠ 0b000#3) ∧
    ((0x04001013#32).extractLsb' 0 7 = 0b0010011#7 ∧ (0x04001013#32).extractLsb' 12 3 = 0b001#3 ∧
      (0x04001013#32).extractLsb' 26 6 ≠ 0b000000#6) ∧
    ((0x44005013#32).extractLsb' 0 7 = 0b0010011#7 ∧ (0x44005013#32).extractLsb' 12 3 = 0b101#3 ∧
      (0x44005013#32).extractLsb' 26 6 = 0b010001#6) ∧
    (0x0000007F#32).extractLsb' 0 7 = 0b1111111#7 := by decide

/-- An aligned, mapped pc with four bytes that spell ADDI x0, x0, 0, and none of them stored. -/
theorem witness_StepRunsDecodedInstruction :
    (0xFFFFFFFC#32).toNat % 4 = 0 ∧
    AllMapped nopAtTop 0xFFFFFFFC#32 4 ∧
    (∀ k < 4, wasStored nopAtTop (0xFFFFFFFC#32 + BitVec.ofNat 32 k) = false) ∧
    BytesAre nopAtTop 0xFFFFFFFC#32 [0x13#8, 0#8, 0#8, 0#8] ∧
    decode (0#8 ++ 0#8 ++ 0#8 ++ 0x13#8) = .instr (.addi 0 0 0) := by
  unfold AllMapped BytesAre; decide

/-- A pc that is not a multiple of 4. -/
theorem witness_StepStopsBeforeExecution_misaligned : (start 0x1002#32 [] [] []).pc.toNat % 4 ≠ 0 := by decide

/-- The last of the four bytes is outside MEM_MAP. -/
theorem witness_StepStopsBeforeExecution_unmapped : ¬ AllMapped (small [⟨0x1000, 3⟩] 0x1000#32 [] []) 0x1000#32 4 := by
  unfold AllMapped; decide

/-- The last of the four bytes was stored. -/
theorem witness_StepStopsBeforeExecution_stored :
    AllMapped (blank.setStored [0x1003]) 0x1000#32 4 ∧
    wasStored (blank.setStored [0x1003]) (0x1000#32 + BitVec.ofNat 32 3) = true := by
  unfold AllMapped; decide

/-- The last of the four bytes holds no value. -/
theorem witness_StepStopsBeforeExecution_unwritten :
    AllMapped threeBytes 0x1000#32 4 ∧
    (∀ k < 4, wasStored threeBytes (0x1000#32 + BitVec.ofNat 32 k) = false) ∧
    memByte threeBytes (0x1000#32 + BitVec.ofNat 32 3) = none ∧
    ∀ j < 3, memByte threeBytes (0x1000#32 + BitVec.ofNat 32 j) ≠ none := by
  unfold AllMapped; decide

/-- Four bytes of an invalid shift, and four bytes of a word without a meaning. -/
theorem witness_StepStopsBeforeExecution_words :
    BytesAre (start 0x1000#32 [] [] [(0x1000, 0x13#8), (0x1001, 0xD3#8), (0x1002, 0x02#8), (0x1003, 0x02#8)]) 0x1000#32
      [0x13#8, 0xD3#8, 0x02#8, 0x02#8] ∧
    decode (0x02#8 ++ 0x02#8 ++ 0xD3#8 ++ 0x13#8) = .illegalInstruction ∧
    BytesAre (start 0x1000#32 [] [] [(0x1000, 0#8), (0x1001, 0#8), (0x1002, 0#8), (0x1003, 0#8)]) 0x1000#32
      [0#8, 0#8, 0#8, 0#8] ∧
    decode (0#8 ++ 0#8 ++ 0#8 ++ 0#8) = .unknownEncoding := by
  unfold BytesAre; decide

theorem witness_PlacedWordIsFetched :
    State.reset.pc.toNat % 4 = 0 ∧ decode 0x00000013#32 = .instr (.addi 0 0 0) := by decide

/-- A general `rd`: not x[0]. -/
theorem witness_RdHolds : (31#5 : RegNum) ≠ 0#5 := by decide

/-- The largest offset that lands on a multiple of 4, the most negative one, and one that does not land there. -/
theorem witness_JalLinksAndJumps :
    (BitVec.ofInt 32 ((0x1000#32).toNat + (0xFFFFC#21).toInt)).toNat % 4 = 0 ∧
    (BitVec.ofInt 32 ((0x1000#32).toNat + (0x100000#21).toInt)).toNat % 4 = 0 ∧
    (BitVec.ofInt 32 ((0x1000#32).toNat + (0xFFFFE#21).toInt)).toNat % 4 ≠ 0 := by decide

theorem witness_JalrLinksAndJumps :
    (BitVec.ofInt 32 ((readReg (start 0x1000#32 [(5, 0x801)] [] []) 5).toNat + (0x7FF#12).toInt)).toNat % 4 = 0 ∧
    (BitVec.ofInt 32 ((readReg (start 0x1000#32 [(5, 0x800)] [] []) 5).toNat + (0x800#12).toInt)).toNat % 4 = 0 ∧
    (BitVec.ofInt 32 ((readReg (start 0x1000#32 [(5, 0x800)] [] []) 5).toNat + (0x7FF#12).toInt)).toNat % 4 ≠ 0 := by
  decide

/-- Branch targets: the largest offset to a multiple of 4, the most negative one, the largest offset of all. -/
theorem witness_branch_targets :
    (BitVec.ofInt 32 ((0x2000#32).toNat + (4092#13).toInt)).toNat % 4 = 0 ∧
    (BitVec.ofInt 32 ((0x2000#32).toNat + (0x1000#13).toInt)).toNat % 4 = 0 ∧
    (BitVec.ofInt 32 ((0x2000#32).toNat + (4094#13).toInt)).toNat % 4 ≠ 0 := by decide

theorem witness_EqualityBranches :
    readReg (start 0x2000#32 [(5, 7), (6, 7)] [] []) 5 = readReg (start 0x2000#32 [(5, 7), (6, 7)] [] []) 6 ∧
    readReg (start 0x2000#32 [(5, 7), (6, 8)] [] []) 5 ≠ readReg (start 0x2000#32 [(5, 7), (6, 8)] [] []) 6 := by decide

/-- Less and equal: the two sides of the boundary. -/
theorem witness_SignedBranches :
    (readReg (start 0x2000#32 [(5, 0x80000000), (6, 0x7FFFFFFF)] [] []) 5).toInt
      < (readReg (start 0x2000#32 [(5, 0x80000000), (6, 0x7FFFFFFF)] [] []) 6).toInt ∧
    ¬ (readReg (start 0x2000#32 [(5, 7), (6, 7)] [] []) 5).toInt
      < (readReg (start 0x2000#32 [(5, 7), (6, 7)] [] []) 6).toInt ∧
    (readReg (start 0x2000#32 [(5, 7), (6, 7)] [] []) 6).toInt
      ≤ (readReg (start 0x2000#32 [(5, 7), (6, 7)] [] []) 5).toInt ∧
    ¬ (readReg (start 0x2000#32 [(5, 0x80000000), (6, 0x7FFFFFFF)] [] []) 6).toInt
      ≤ (readReg (start 0x2000#32 [(5, 0x80000000), (6, 0x7FFFFFFF)] [] []) 5).toInt := by decide

theorem witness_UnsignedBranches :
    (readReg (start 0x2000#32 [(6, 0xFFFFFFFF)] [] []) 5).toNat
      < (readReg (start 0x2000#32 [(6, 0xFFFFFFFF)] [] []) 6).toNat ∧
    ¬ (readReg (start 0x2000#32 [(5, 7), (6, 7)] [] []) 5).toNat
      < (readReg (start 0x2000#32 [(5, 7), (6, 7)] [] []) 6).toNat ∧
    (readReg (start 0x2000#32 [(5, 7), (6, 7)] [] []) 6).toNat
      ≤ (readReg (start 0x2000#32 [(5, 7), (6, 7)] [] []) 5).toNat ∧
    ¬ (readReg (start 0x2000#32 [(6, 0xFFFFFFFF)] [] []) 6).toNat
      ≤ (readReg (start 0x2000#32 [(6, 0xFFFFFFFF)] [] []) 5).toNat := by decide

/-- A byte at the top of the address space. -/
theorem witness_ByteLoads :
    baseOffset byteAtTop 0 0xFFF#12 = 0xFFFFFFFF#32 ∧
    AllMapped byteAtTop 0xFFFFFFFF#32 1 ∧
    BytesAre byteAtTop 0xFFFFFFFF#32 [0x80#8] := by
  unfold AllMapped BytesAre; decide

/-- A byte outside MEM_MAP, and a mapped one without a value. -/
theorem witness_ByteLoads_and_UnwrittenLoadsFault :
    baseOffset (mapping 1) 5 1#12 = 0x2001#32 ∧
    ¬ AllMapped (mapping 1) 0x2001#32 1 ∧
    AllMapped (mapping 1) 0x2000#32 1 ∧
    memByte (mapping 1) (0x2000#32 + BitVec.ofNat 32 0) = none := by
  unfold AllMapped; decide

/-- A halfword at the top of the address space, and an odd address. -/
theorem witness_HalfwordLoads :
    baseOffset halfAtTop 0 0xFFE#12 = 0xFFFFFFFE#32 ∧
    (0xFFFFFFFE#32).toNat % 2 = 0 ∧
    AllMapped halfAtTop 0xFFFFFFFE#32 2 ∧
    BytesAre halfAtTop 0xFFFFFFFE#32 [0x34#8, 0x80#8] ∧
    (baseOffset blank 0 0xFFF#12).toNat % 2 ≠ 0 := by
  unfold AllMapped BytesAre; decide

/-- The second byte is outside MEM_MAP; the second byte holds no value. -/
theorem witness_HalfwordLoads_and_UnwrittenLoadsFault :
    ¬ AllMapped (mapping 1) (baseOffset (mapping 1) 5 0#12) 2 ∧
    AllMapped secondMissing 0x2000#32 2 ∧
    memByte secondMissing (0x2000#32 + BitVec.ofNat 32 1) = none ∧
    ∀ j < 1, memByte secondMissing (0x2000#32 + BitVec.ofNat 32 j) ≠ none := by
  unfold AllMapped; decide

/-- A word at the top of the address space, and an address 2 modulo 4. -/
theorem witness_WordLoad :
    baseOffset wordAtTop 0 0xFFC#12 = 0xFFFFFFFC#32 ∧
    (0xFFFFFFFC#32).toNat % 4 = 0 ∧
    AllMapped wordAtTop 0xFFFFFFFC#32 4 ∧
    BytesAre wordAtTop 0xFFFFFFFC#32 [1#8, 2#8, 3#8, 4#8] ∧
    (baseOffset blank 0 0xFFE#12).toNat % 4 ≠ 0 := by
  unfold AllMapped BytesAre; decide

/-- The last byte is outside MEM_MAP; the last byte holds no value. -/
theorem witness_WordLoad_and_UnwrittenLoadsFault :
    ¬ AllMapped (mapping 3) (baseOffset (mapping 3) 5 0#12) 4 ∧
    AllMapped lastMissing 0x2000#32 4 ∧
    memByte lastMissing (0x2000#32 + BitVec.ofNat 32 3) = none ∧
    ∀ j < 3, memByte lastMissing (0x2000#32 + BitVec.ofNat 32 j) ≠ none := by
  unfold AllMapped; decide

/-- The stores at the top of the address space. -/
theorem witness_stores :
    AllMapped blank (baseOffset blank 0 0xFFF#12) 1 ∧
    (baseOffset blank 0 0xFFE#12).toNat % 2 = 0 ∧
    AllMapped blank (baseOffset blank 0 0xFFE#12) 2 ∧
    (baseOffset blank 0 0xFFC#12).toNat % 4 = 0 ∧
    AllMapped blank (baseOffset blank 0 0xFFC#12) 4 := by
  unfold AllMapped; decide

/-- Misaligned stores, and stores whose last byte is outside MEM_MAP. -/
theorem witness_stores_stop :
    (baseOffset blank 0 0xFFF#12).toNat % 2 ≠ 0 ∧
    (baseOffset blank 0 0xFFE#12).toNat % 4 ≠ 0 ∧
    ¬ AllMapped (small [⟨0x2000, 1⟩] 0x1000#32 [] []) 0x2001#32 1 ∧
    ¬ AllMapped (small [⟨0x2000, 1⟩] 0x1000#32 [] []) 0x2000#32 2 ∧
    ¬ AllMapped (small [⟨0x2000, 3⟩] 0x1000#32 [] []) 0x2000#32 4 := by
  unfold AllMapped; decide

/-- A completed SW, and the offsets of its last byte, its upper halfword and its whole word. -/
theorem witness_StoredWordReadsBackInParts :
    ∃ t, exec (.sw 5 6 4) (start 0x1000#32 [(5, 0x2000), (6, 0x89ABCDEF)] [] []) = .next t ∧
      baseOffset t 5 7#12 = 0x2004#32 + BitVec.ofNat 32 3 ∧ baseOffset t 5 6#12 = 0x2004#32 + BitVec.ofNat 32 2 ∧
      baseOffset t 5 4#12 = 0x2004#32 + BitVec.ofNat 32 0 := ⟨_, rfl, by decide, by decide, by decide⟩

/-- The first and the last CSR address in CSR_SET, and the same two outside it. -/
theorem witness_csr_forms :
    csrImplemented blank 0x000#12 = true ∧ csrImplemented blank 0xFFF#12 = true ∧
    csrImplemented (small [] 0x1000#32 [] []) 0x000#12 = false ∧
    csrImplemented (small [] 0x1000#32 [] []) 0xFFF#12 = false := by decide

theorem witness_SwspStoresAtSp :
    (spOffset (start 0x1000#32 [(2, 0x2000)] [] []) 4#32).toNat % 4 = 0 ∧
    AllMapped (start 0x1000#32 [(2, 0x2000)] [] []) (spOffset (start 0x1000#32 [(2, 0x2000)] [] []) 4#32) 4 ∧
    (spOffset (start 0x1000#32 [(2, 0x2000)] [] []) 2#32).toNat % 4 ≠ 0 ∧
    ¬ AllMapped (mapping 3) (spOffset (mapping 3) 0#32) 4 := by
  unfold AllMapped; decide

/-- LWSP completing, at a misaligned address, outside MEM_MAP, and at a byte without a value. -/
theorem witness_LwspLoadsAtSp :
    spOffset atSp 4#32 = 0x2000#32 ∧
    (0x2000#32).toNat % 4 = 0 ∧
    AllMapped atSp 0x2000#32 4 ∧
    BytesAre atSp 0x2000#32 [1#8, 2#8, 3#8, 4#8] ∧
    (spOffset atSp 2#32).toNat % 4 ≠ 0 ∧
    ¬ AllMapped (mapping 3) (spOffset (mapping 3) 0#32) 4 ∧ AllMapped (mapping 4) (spOffset (mapping 4) 0#32) 4 ∧
    memByte (mapping 4) (spOffset (mapping 4) 0#32 + BitVec.ofNat 32 0) = none := by
  unfold AllMapped BytesAre; decide

/-- SWSP and LWSP at the largest immediate of the statement, completing and faulting. -/
theorem witness_SwAndLwReplaceSwspAndLwsp :
    (2047#12).toNat < 2048 ∧
    (∃ t, exec (.swsp 6 ((2047#12).setWidth 32)) (start 0x1000#32 [(2, 0x1801)] [] []) = .next t) ∧
    (∃ t, exec (.lwsp 6 ((2047#12).setWidth 32)) (start 0x1000#32 [(2, 0x1801)] []
      [(0x2000, 1#8), (0x2001, 2#8), (0x2002, 3#8), (0x2003, 4#8)]) = .next t) ∧
    (∃ f, exec (.swsp 6 ((2047#12).setWidth 32)) blank = .fault f) ∧
    ∃ f, exec (.lwsp 6 ((2047#12).setWidth 32)) blank = .fault f :=
  ⟨by decide, ⟨_, rfl⟩, ⟨_, rfl⟩, ⟨_, rfl⟩, ⟨_, rfl⟩⟩

/-- A completed instruction, for the rules over all instructions: it writes another register, names no CSR, stores
nothing, is not a jump and has an encoding. -/
theorem witness_rules_over_instructions :
    (∃ t, exec (.addi 5 0 1) blank = .next t) ∧ destReg (.addi 5 0 1) ≠ some 6 ∧
    csrOperand (.addi 5 0 1) ≠ some 0x340 ∧ csrOperand (.addi 5 0 1) = none ∧
    storeTarget blank (.addi 5 0 1) = none ∧
    transfersControl (.addi 5 0 1) = false ∧ hasEncoding (.addi 5 0 1) = true :=
  ⟨⟨_, rfl⟩, by decide, by decide, by decide, by decide, by decide, by decide⟩

/-- A completed SW, with the first address after its bytes and the last one before them. -/
theorem witness_OnlyTheStoredBytesChange :
    (∃ t, exec (.sw 5 6 4) (start 0x1000#32 [(5, 0x2000)] [] []) = .next t) ∧
    storeTarget (start 0x1000#32 [(5, 0x2000)] [] []) (.sw 5 6 4) = some (0x2004#32, 4) ∧
    4 ≤ (0x2008#32 - 0x2004#32).toNat ∧ 4 ≤ (0x2003#32 - 0x2004#32).toNat :=
  ⟨⟨_, rfl⟩, by decide, by decide, by decide⟩

/-- A fault of an instruction and a refusal of a step. -/
theorem witness_OnlyTheTableFaults :
    exec (.lw 7 5 2) blank = .fault (.misalignedLoad 2#32) ∧ csrOperand (.lw 7 5 2) = none ∧
    step (blank.setStored [0x1003]) = .refused (.selfModifyingCode 0x1000#32) :=
  ⟨rfl, by decide, rfl⟩

theorem witness_LuiThenAddiBuildsAnyConstant : (31#5 : RegNum) ≠ 0#5 := by decide

theorem witness_LaunchStateHoldsWhatItIsGiven : (31#5 : RegNum) ≠ 0#5 := by decide

theorem witness_RegisterZeroAndWriteback : (31#5 : RegNum) = 31#5 ∧ (31#5 : RegNum) ≠ 0#5 := by decide

/-- A state that meets the invariant, with a stored byte and a listed CSR, whose step completes. -/
theorem witness_StepKeepsTheInvariant :
    let s := ((start 0x1000#32 [(5, 7)] [(0x340, 1#32)] [(0x1000, 0x13#8), (0x1001, 0#8), (0x1002, 0#8), (0x1003, 0#8),
      (0x2000, 9#8)]).setStored [0x2000])
    Inv s ∧ ∃ t, step s = .next t :=
  ⟨⟨by decide, by decide, by decide, by decide, by decide, by decide, by decide, by decide⟩, ⟨_, rfl⟩⟩

/-- Two steps that complete, a byte not stored after them, and a word that the third step fetches. -/
theorem witness_ProgramTextIsFixed :
    let s := start 0x1000#32 [] [] [(0x1000, 0x6F#8), (0x1001, 0#8), (0x1002, 0#8), (0x1003, 0#8)]
    ∃ t, core.run 2 s = .next t ∧ wasStored t 0x1000#32 = false ∧ fetch t = .next 0x0000006F#32 ∧
      (∃ u, step s = .next u) :=
  ⟨_, rfl, by decide, rfl, _, rfl⟩

theorem witness_SelfJumpChangesNothing :
    atSelfJump (blank.withFetchWord 32 0x0000006F) = true := by decide

theorem witness_StoreOverNextInstructionIsRefused :
    (0x1000#32).toNat % 4 = 0 ∧ (∃ t, exec (.sw 5 6 4) (start 0x1000#32 [(5, 0x1000)] [] []) = .next t) ∧
    baseOffset (start 0x1000#32 [(5, 0x1000)] [] []) 5 4 = 0x1000#32 + 4 :=
  ⟨by decide, ⟨_, rfl⟩, by decide⟩

end Sys2Proof.Tests
end

section
/-! PROOFS. MEM_MAP and CSR_SET over a step and over a run (spec/00_scope.md R6). -/

namespace Sys2Proof.Machine

/-! ## Runs, of any machine of the host's interface -/

/-- A run of at least one step that answers a next state is a step and then a run. -/
theorem run_succ_next {M : Host.Core} {n : Nat} {s t : M.State} (h : M.run (n + 1) s = .next t) :
    ∃ u, M.step s = .next u ∧ M.run n u = .next t := by
  rw [Host.Core.run] at h
  split at h
  next u hstep => exact ⟨u, hstep, h⟩
  next => cases h
  next => cases h

/-- The induction on runs: a relation that holds of every state and itself, and goes back over a first step, holds of a
run's start and its end. -/
theorem run_induction {M : Host.Core} {R : M.State → M.State → Prop} (refl : ∀ s, R s s)
    (head : ∀ s u t, M.step s = .next u → R u t → R s t) {n : Nat} {s t : M.State} (h : M.run n s = .next t) :
    R s t := by
  induction n generalizing s with
  | zero => cases h; exact refl _
  | succ n ih =>
    obtain ⟨u, hstep, hrun⟩ := run_succ_next h
    exact head s u t hstep (ih hrun)

/-! ## The parameters -/

variable {s t u : State}

/-- None of the effects an instruction can have is on the parameters. -/
theorem Effect.samePlatform {i : Instr} (h : Effect i s u) : SamePlatform s u := by
  cases h with
  | none => rfl
  | reg rd v _ => exact platform_writeReg s rd v
  | store addr n bs _ _ _ _ => exact platform_storeBytes s (byteAddrs addr n) bs
  | csr rd v a w _ _ _ => exact (platform_writeCsr (writeReg s rd v) a w).trans (platform_writeReg s rd v)

theorem exec_samePlatform {i : Instr} (h : exec i s = .next t) : SamePlatform s t := by
  obtain ⟨u, heffect, ht⟩ := exec_effect h
  calc t.platform = (u.setPc t.pc).platform := congrArg State.platform ht
    _ = u.platform := platform_setPc u t.pc
    _ = s.platform := heffect.samePlatform

theorem step_samePlatform (h : step s = .next t) : SamePlatform s t := by
  obtain ⟨_, _, -, -, hexec⟩ := step_next h
  exact exec_samePlatform hexec

theorem run_samePlatform {n : Nat} (h : core.run n s = .next t) : SamePlatform s t :=
  run_induction (M := core) (R := SamePlatform) (fun _ => rfl)
    (fun _ _ _ hstep hrest => hrest.trans (step_samePlatform hstep)) h

/-- Settles O46: no effect of an instruction is on the parameters, so no step changes them, and so no run. -/
theorem parametersNeverChange : Obligations.ParametersNeverChange :=
  ⟨fun _ _ hstep => step_samePlatform hstep, fun _ _ _ hrun => run_samePlatform hrun⟩

end Sys2Proof.Machine
end

section
/-! PROOFS. What an instruction does, by the shared operation it ends in: where it leaves the pc (spec/10_state.md R25),
when it raises CsrNotImplemented (R28), and that the contents of the CSR file matter to the CSR instructions only. -/

namespace Sys2Proof.Machine

/-! ## The operation of an instruction -/

/-- The value is computed without looking at the CSR file. -/
def CsrBlind {α : Type} (f : State → α) : Prop := ∀ (s : State) (c : CsrFile), f (s.setCsrs c) = f s

/-- The meaning of an instruction is one of the six shared operations, on operands that do not come from the CSR file.
Only the instructions without a word move the pc by another length than 4 (spec/49_stack_pointer.md R216, R217). -/
inductive OperationOf (i : Instr) : (State → Result) → Prop
  | compute (rd : RegNum) (v : State → Word) (hc : csrOperand i = none) (hv : CsrBlind v) :
      OperationOf i (fun s => finishRd s rd (v s))
  | link (rd : RegNum) (target : State → Word) (hc : csrOperand i = none) (ht : transfersControl i = true)
      (hv : CsrBlind target) : OperationOf i (fun s => linkAndJump s rd (target s))
  | branch (cond : State → Bool) (off : BitVec 13) (hc : csrOperand i = none) (ht : transfersControl i = true)
      (hv : CsrBlind cond) : OperationOf i (fun s => branchIf (cond s) s off)
  | load (addr : State → Word) (n : Nat) (ext : Word → Word) (rd : RegNum) (len : Word) (hc : csrOperand i = none)
      (hlen : hasEncoding i = true → len = Config.ilen) (hv : CsrBlind addr) :
      OperationOf i (fun s => loadFrom s (addr s) n ext rd len)
  | store (addr : State → Word) (n : Nat) (v : State → Word) (len : Word) (hc : csrOperand i = none)
      (hlen : hasEncoding i = true → len = Config.ilen) (ha : CsrBlind addr) (hv : CsrBlind v) :
      OperationOf i (fun s => storeTo s (addr s) n (v s) len)
  | csr (rd : RegNum) (a : CsrAddr) (new : State → Word → Word) (hc : csrOperand i = some a) :
      OperationOf i (fun s => csrAccess s rd a (new s))

theorem exec_operation (i : Instr) : OperationOf i (exec i) := by
  cases i with
  | jal _ _ | jalr _ _ _ => exact .link _ _ rfl rfl fun _ _ => rfl
  | beq _ _ _ | bne _ _ _ | blt _ _ _ | bge _ _ _ | bltu _ _ _ | bgeu _ _ _ =>
    exact .branch _ _ rfl rfl fun _ _ => rfl
  | lb _ _ _ | lh _ _ _ | lw _ _ _ | lbu _ _ _ | lhu _ _ _ =>
    exact .load _ _ _ _ _ rfl (fun _ => rfl) fun _ _ => rfl
  | lwsp _ _ => exact .load _ _ _ _ _ rfl nofun fun _ _ => rfl
  | sb _ _ _ | sh _ _ _ | sw _ _ _ => exact .store _ _ _ _ rfl (fun _ => rfl) (fun _ _ => rfl) fun _ _ => rfl
  | swsp _ _ => exact .store _ _ _ _ rfl nofun (fun _ _ => rfl) fun _ _ => rfl
  | csrrw rd a rs1 => exact .csr rd a (fun s _ => readReg s rs1) rfl
  | csrrs rd a rs1 => exact .csr rd a (fun s old => old ||| readReg s rs1) rfl
  | csrrc rd a rs1 => exact .csr rd a (fun s old => old &&& ~~~(readReg s rs1)) rfl
  | csrrwi rd a zimm => exact .csr rd a (fun _ _ => unsigned5 zimm) rfl
  | csrrsi rd a zimm => exact .csr rd a (fun _ old => old ||| unsigned5 zimm) rfl
  | csrrci rd a zimm => exact .csr rd a (fun _ old => old &&& ~~~(unsigned5 zimm)) rfl
  | auipc _ _ | lui _ _ | addi _ _ _ | slti _ _ _ | sltiu _ _ _ | xori _ _ _ | ori _ _ _ | andi _ _ _ | slli _ _ _
  | srli _ _ _ | srai _ _ _ | add _ _ _ | sub _ _ _ | sll _ _ _ | slt _ _ _ | sltu _ _ _ | xor _ _ _ | srl _ _ _
  | sra _ _ _ | or _ _ _ | and _ _ _ | mul _ _ _ =>
    exact .compute _ _ rfl fun _ _ => rfl

variable {s t : State}

/-! ## Where an operation leaves the pc -/

theorem jumpTo_pc_aligned {a : Word} (h : jumpTo s a = .next t) : t.pc.toNat % 4 = 0 := by
  rcases jumpTo_cases s a with ⟨ha, e⟩ | ⟨-, e⟩ <;> rw [e] at h <;> cases h
  exact ha

theorem branchIf_pc {c : Bool} {off : BitVec 13} (h : branchIf c s off = .next t) :
    t.pc = s.pc + Config.ilen ∨ t.pc.toNat % 4 = 0 := by
  cases c with
  | false => cases h; exact .inl rfl
  | true => exact .inr (jumpTo_pc_aligned h)

theorem loadFrom_pc {addr : Word} {n : Nat} {ext : Word → Word} {rd : RegNum} {len : Word}
    (h : loadFrom s addr n ext rd len = .next t) : t.pc = s.pc + len := by
  unfold loadFrom at h
  split at h
  next => cases h
  next => cases h; simp

theorem storeTo_pc {addr : Word} {n : Nat} {v len : Word} (h : storeTo s addr n v len = .next t) :
    t.pc = s.pc + len := by
  unfold storeTo at h
  rcases memWrite_cases s addr n v with ⟨-, e⟩ | ⟨-, -, e⟩ | ⟨-, -, e⟩ <;> rw [e] at h <;> cases h
  simp

theorem csrAccess_pc {rd : RegNum} {a : CsrAddr} {new : Word → Word} (h : csrAccess s rd a new = .next t) :
    t.pc = s.pc + Config.ilen := by
  unfold csrAccess at h
  split at h
  next => cases h
  next => cases h; simp

/-- An instruction that some word spells goes on to `pc + 4`, or is a jump or a branch to a multiple of 4. -/
theorem exec_pc {i : Instr} (hi : hasEncoding i = true) (h : exec i s = .next t) :
    t.pc = s.pc + Config.ilen ∨ (transfersControl i = true ∧ t.pc.toNat % 4 = 0) := by
  have hop := exec_operation i
  generalize exec i = f at hop h
  cases hop with
  | compute rd v => cases h; exact .inl (by simp)
  | link rd target _ ht => exact .inr ⟨ht, jumpTo_pc_aligned h⟩
  | branch cond off _ ht => exact (branchIf_pc h).imp_right fun ha => ⟨ht, ha⟩
  | load addr n ext rd len _ hlen => exact .inl (hlen hi ▸ loadFrom_pc h)
  | store addr n v len _ hlen => exact .inl (hlen hi ▸ storeTo_pc h)
  | csr rd a new => exact .inl (csrAccess_pc h)

/-- Settles O39: what is no jump and no branch leaves the pc at `pc + 4`. -/
theorem sequentialPc : Obligations.SequentialPc := by
  intro i s t ht hi h
  rcases exec_pc hi h with hpc | ⟨ht', -⟩
  · rw [hpc, BitVec.toNat_add]; rfl
  · exact absurd ht' (by simp [ht])

/-! ## When an operation raises CsrNotImplemented -/

theorem jumpTo_ne_csrNotImplemented (s : State) (t : Word) (a : CsrAddr) :
    jumpTo s t ≠ .fault (.csrNotImplemented a) := by
  rcases jumpTo_cases s t with ⟨-, e⟩ | ⟨-, e⟩ <;> simp [e]

theorem branchIf_ne_csrNotImplemented (c : Bool) (s : State) (off : BitVec 13) (a : CsrAddr) :
    branchIf c s off ≠ .fault (.csrNotImplemented a) := by
  cases c with
  | false => simp [branchIf]
  | true => exact jumpTo_ne_csrNotImplemented s _ a

theorem loadFrom_ne_csrNotImplemented (s : State) (addr : Word) (n : Nat) (ext : Word → Word) (rd : RegNum)
    (len : Word) (a : CsrAddr) : loadFrom s addr n ext rd len ≠ .fault (.csrNotImplemented a) := by
  unfold loadFrom
  rcases memRead_cases s addr n with ⟨-, e⟩ | ⟨-, -, e⟩ | ⟨-, -, ⟨_, -, -, -, e⟩ | ⟨_, -, -, e⟩⟩ <;> simp [e, raise]

theorem storeTo_ne_csrNotImplemented (s : State) (addr : Word) (n : Nat) (v len : Word) (a : CsrAddr) :
    storeTo s addr n v len ≠ .fault (.csrNotImplemented a) := by
  unfold storeTo
  rcases memWrite_cases s addr n v with ⟨-, e⟩ | ⟨-, -, e⟩ | ⟨-, -, e⟩ <;> simp [e, raise]

theorem csrAccess_eq_csrNotImplemented (s : State) (rd : RegNum) (b : CsrAddr) (new : Word → Word) (a : CsrAddr) :
    csrAccess s rd b new = .fault (.csrNotImplemented a) ↔ b = a ∧ csrImplemented s a = false := by
  cases hb : csrImplemented s b with
  | false =>
    rw [csrAccess_of_absent hb]
    constructor
    · intro h; cases h; exact ⟨rfl, hb⟩
    · rintro ⟨rfl, -⟩; rfl
  | true =>
    have hne : csrAccess s rd b new ≠ .fault (.csrNotImplemented a) := by simp [csrAccess, hb]
    refine iff_of_false hne ?_
    rintro ⟨rfl, ha⟩
    simp [hb] at ha

/-- Settles O31: of the six operations only `csrAccess` raises the fault, and it names the instruction's own CSR. -/
theorem csrOutsideSetFaults : Obligations.CsrOutsideSetFaults := by
  intro i s a
  have names_none (hc : csrOperand i = none) : ¬ (csrOperand i = some a ∧ csrImplemented s a = false) := by simp [hc]
  have hop := exec_operation i
  generalize exec i = f at hop ⊢
  cases hop with
  | compute rd v hc => exact iff_of_false nofun (names_none hc)
  | link rd target hc => exact iff_of_false (jumpTo_ne_csrNotImplemented _ _ a) (names_none hc)
  | branch cond off hc => exact iff_of_false (branchIf_ne_csrNotImplemented _ s off a) (names_none hc)
  | load addr n ext rd len hc => exact iff_of_false (loadFrom_ne_csrNotImplemented s _ n ext rd len a) (names_none hc)
  | store addr n v len hc => exact iff_of_false (storeTo_ne_csrNotImplemented s _ n _ len a) (names_none hc)
  | csr rd b new hc => simpa [hc] using csrAccess_eq_csrNotImplemented s rd b (new s) a

/-! ## Operations on a state with another CSR file -/

/-- The outcome with the CSR file of its next state, if it has one, replaced. -/
def withCsrs (c : CsrFile) : Result → Result
  | .next t => .next (t.setCsrs c)
  | .fault f => .fault f
  | .refused r => .refused r

theorem writeReg_setCsrs (s : State) (c : CsrFile) (rd : RegNum) (v : Word) :
    writeReg (s.setCsrs c) rd v = (writeReg s rd v).setCsrs c := by
  unfold writeReg; split <;> rfl

theorem finishRd_setCsrs (s : State) (c : CsrFile) (rd : RegNum) (v : Word) :
    finishRd (s.setCsrs c) rd v = withCsrs c (finishRd s rd v) := by
  rw [finishRd, writeReg_setCsrs]; rfl

theorem jumpTo_setCsrs (s : State) (c : CsrFile) (a : Word) :
    jumpTo (s.setCsrs c) a = withCsrs c (jumpTo s a) := by
  unfold jumpTo; split <;> rfl

theorem linkAndJump_setCsrs (s : State) (c : CsrFile) (rd : RegNum) (a : Word) :
    linkAndJump (s.setCsrs c) rd a = withCsrs c (linkAndJump s rd a) := by
  rw [linkAndJump, writeReg_setCsrs]
  exact jumpTo_setCsrs _ c a

theorem branchIf_setCsrs (b : Bool) (s : State) (c : CsrFile) (off : BitVec 13) :
    branchIf b (s.setCsrs c) off = withCsrs c (branchIf b s off) := by
  cases b with
  | false => rfl
  | true => exact jumpTo_setCsrs s c _

theorem readBytes_setCsrs (s : State) (c : CsrFile) (as : List Word) :
    readBytes (s.setCsrs c) as = readBytes s as := by
  induction as with
  | nil => rfl
  | cons a as ih => rw [readBytes, ih]; rfl

theorem memRead_setCsrs (s : State) (c : CsrFile) (addr : Word) (n : Nat) :
    memRead (s.setCsrs c) addr n = memRead s addr n := by
  rw [memRead, readBytes_setCsrs]; rfl

theorem loadFrom_setCsrs (s : State) (c : CsrFile) (addr : Word) (n : Nat) (ext : Word → Word) (rd : RegNum)
    (len : Word) : loadFrom (s.setCsrs c) addr n ext rd len = withCsrs c (loadFrom s addr n ext rd len) := by
  rw [loadFrom, memRead_setCsrs, loadFrom]
  cases memRead s addr n with
  | error f => rfl
  | ok v => simp only [writeReg_setCsrs]; rfl

theorem storeBytes_setCsrs (s : State) (c : CsrFile) (as : List Word) (bs : List Byte) :
    storeBytes (s.setCsrs c) as bs = (storeBytes s as bs).setCsrs c := by
  induction as generalizing s bs with
  | nil => rfl
  | cons a as ih => cases bs with
    | nil => rfl
    | cons b bs => exact ih (storeByte s a b) bs

theorem memWrite_setCsrs (s : State) (c : CsrFile) (addr : Word) (n : Nat) (v : Word) :
    memWrite (s.setCsrs c) addr n v = (memWrite s addr n v).map (·.setCsrs c) := by
  rw [memWrite, memWrite, storeBytes_setCsrs, show mapped (s.setCsrs c) = mapped s from rfl]
  split_ifs <;> rfl

theorem storeTo_setCsrs (s : State) (c : CsrFile) (addr : Word) (n : Nat) (v len : Word) :
    storeTo (s.setCsrs c) addr n v len = withCsrs c (storeTo s addr n v len) := by
  rw [storeTo, memWrite_setCsrs, storeTo]
  cases memWrite s addr n v <;> rfl

theorem exec_setCsrs {i : Instr} (hi : csrOperand i = none) (s : State) (c : CsrFile) :
    exec i (s.setCsrs c) = withCsrs c (exec i s) := by
  have hop := exec_operation i
  generalize exec i = f at hop ⊢
  cases hop with
  | compute rd v _ hv => dsimp only; rw [hv, finishRd_setCsrs]
  | link rd target _ _ hv => dsimp only; rw [hv, linkAndJump_setCsrs]
  | branch cond off _ _ hv => dsimp only; rw [hv, branchIf_setCsrs]
  | load addr n ext rd len _ _ hv => dsimp only; rw [hv, loadFrom_setCsrs]
  | store addr n v len _ _ ha hv => dsimp only; rw [ha, hv, storeTo_setCsrs]
  | csr rd a new hc => rw [hi] at hc; cases hc

/-- Settles O41: an instruction that names no CSR does the same with another CSR file, and keeps that file. -/
theorem csrContentsMatterOnlyToCsrInstructions : Obligations.CsrContentsMatterOnlyToCsrInstructions := by
  intro i s c hi
  rw [exec_setCsrs hi]
  exact ⟨fun t h => by rw [h]; rfl, fun f h => by rw [h]; rfl⟩

end Sys2Proof.Machine
end

section
/-! PROOFS. The state (spec/10_state.md): the general registers, loads of bytes without a value, and the invariant at
reset and over a step. -/

namespace Sys2Proof.Machine

variable {s t u : State}

/-! ## General registers -/

/-- Settles O35, by what reading gives after a write. -/
theorem registerZeroAndWriteback : Obligations.RegisterZeroAndWriteback :=
  fun s r q v => ⟨readReg_zero s, writeReg_zero s v, readReg_writeReg s r q v⟩

/-- None of the effects an instruction can have is on a register other than its `rd`. -/
theorem Effect.readReg_of_ne {i : Instr} {r : RegNum} (h : Effect i s u) (hr : destReg i ≠ some r) :
    readReg u r = readReg s r := by
  have ne_rd {rd : RegNum} (hd : destReg i = some rd) : r ≠ rd := fun e => hr (e ▸ hd)
  cases h with
  | none => rfl
  | reg rd v hd => simp [readReg_writeReg, ne_rd hd]
  | store addr n bs _ _ _ _ => exact readReg_congr (regs_storeBytes s (byteAddrs addr n) bs) r
  | csr rd v a w hd _ _ => simp [readReg_writeReg, ne_rd hd]

/-- Settles O36: no effect of an instruction is on another register than its `rd`, and moving the pc is on none. -/
theorem onlyTheDestinationRegisterChanges : Obligations.OnlyTheDestinationRegisterChanges := by
  intro i s t h r hr
  obtain ⟨u, heffect, ht⟩ := exec_effect h
  rw [ht, readReg_setPc]
  exact heffect.readReg_of_ne hr

/-! ## Loads of bytes without a value -/

/-- Settles O18: the six loads are `loadFrom`, which names the lowest byte without a value. -/
theorem unwrittenLoadsFault : Obligations.UnwrittenLoadsFault :=
  fun _ _ _ _ _ => ⟨loadUnwritten_of_loadFrom rfl, loadUnwritten_of_loadFrom rfl, loadUnwritten_of_loadFrom rfl,
    loadUnwritten_of_loadFrom rfl, loadUnwritten_of_loadFrom rfl, loadUnwritten_of_loadFrom rfl⟩

/-! ## The invariant -/

/-- Settles O44: nothing is listed or stored at reset, and the slot of x[0] and the pc are 0. -/
theorem resetMeetsTheInvariant : Obligations.ResetMeetsTheInvariant where
  memCanonical := memory_wf_reset
  csrsCanonical := rfl
  storedCanonical := rfl
  storedListed := by simp
  storedMapped := by simp
  csrsImplemented := by simp
  zeroSlot := rfl
  pcAligned := rfl

theorem Inv.setPc (h : Inv s) {p : Word} (hp : p.toNat % 4 = 0) : Inv (s.setPc p) :=
  { h with pcAligned := hp }

theorem Inv.writeReg (h : Inv s) (rd : RegNum) (v : Word) : Inv (writeReg s rd v) where
  memCanonical := by simpa using h.memCanonical
  csrsCanonical := by simpa using h.csrsCanonical
  storedCanonical := by simpa using h.storedCanonical
  storedListed := by simpa using h.storedListed
  storedMapped := by simpa using h.storedMapped
  csrsImplemented := by simpa using h.csrsImplemented
  zeroSlot := by simpa using h.zeroSlot
  pcAligned := by simpa using h.pcAligned

/-- Storing bytes to mapped addresses: each byte recorded was recorded before, or is one of those addresses. -/
theorem Inv.storeBytes (h : Inv s) {addr : Word} {n : Nat} (hm : AllMapped s addr n) (bs : List Byte) :
    Inv (storeBytes s (byteAddrs addr n) bs) where
  memCanonical := memory_wf_storeBytes s h.memCanonical _ bs
  csrsCanonical := by simpa using h.csrsCanonical
  storedCanonical := rising_storeBytes s h.storedCanonical _ bs
  storedListed := storedListed_storeBytes s h.storedListed _ bs
  storedMapped := by
    intro k hk
    rw [platform_storeBytes]
    rcases mem_stored_storeBytes s _ bs hk with hk | ⟨a, ha, rfl⟩
    · exact h.storedMapped k hk
    · exact List.all_eq_true.mp ((all_mapped_iff s addr n).mpr hm) a ha
  csrsImplemented := by simpa using h.csrsImplemented
  zeroSlot := by simpa using h.zeroSlot
  pcAligned := by simpa using h.pcAligned

/-- Writing an implemented cell: each cell listed was listed before, or is that cell. -/
theorem Inv.writeCsr (h : Inv s) {a : CsrAddr} (ha : csrImplemented s a = true) (v : Word) :
    Inv (writeCsr s a v) where
  memCanonical := by simpa using h.memCanonical
  csrsCanonical := csrFile_wf_writeCsr s h.csrsCanonical a v
  storedCanonical := by simpa using h.storedCanonical
  storedListed := by simpa using h.storedListed
  storedMapped := by simpa using h.storedMapped
  csrsImplemented := by
    intro e he
    rw [platform_writeCsr]
    rcases mem_csrs_writeCsr s he with heq | he
    · exact heq ▸ ha
    · exact h.csrsImplemented e he
  zeroSlot := by simpa using h.zeroSlot
  pcAligned := by simpa using h.pcAligned

/-- Each of the effects an instruction can have keeps the invariant. -/
theorem Effect.keepsInv {i : Instr} (h : Effect i s u) (hinv : Inv s) : Inv u := by
  cases h with
  | none => exact hinv
  | reg rd v _ => exact hinv.writeReg rd v
  | store addr n bs _ _ _ hm => exact hinv.storeBytes hm bs
  | csr rd v a w _ _ hi =>
    have hi' : csrImplemented (writeReg s rd v) a = true := by simpa [csrImplemented] using hi
    exact (hinv.writeReg rd v).writeCsr hi' w

/-- Every row of the opcode map builds an instruction that has an encoding. -/
theorem hasEncoding_of_row : ∀ r ∈ opcodeTable, ∀ w, hasEncoding (r.build w) = true := by
  simp [opcodeTable, rowsUJ, rowsB, rowsMem, rowsImm, rowsReg, rowsCsr, hasEncoding]

theorem hasEncoding_of_decode {w : Word} {i : Instr} (h : decode w = .instr i) : hasEncoding i = true := by
  obtain ⟨r, hr, -, rfl⟩ := row_of_decode h
  exact hasEncoding_of_row r hr w

/-- An instruction that some word spells, started at an aligned pc, leaves an aligned pc. -/
theorem exec_pc_aligned {i : Instr} (hi : hasEncoding i = true) (hs : s.pc.toNat % 4 = 0) (h : exec i s = .next t) :
    t.pc.toNat % 4 = 0 := by
  rcases exec_pc hi h with hpc | ⟨-, hpc⟩
  · have hlen : Config.ilen.toNat = 4 := rfl
    rw [hpc, BitVec.toNat_add, hlen]
    omega
  · exact hpc

/-- Settles O45: the effect of the decoded instruction keeps the invariant but for the pc, which stays aligned because
the two instructions that move it otherwise have no word (spec/49_stack_pointer.md R215). -/
theorem stepKeepsTheInvariant : Obligations.StepKeepsTheInvariant := by
  intro s t hinv hstep
  obtain ⟨ir, i, -, hdecode, hexec⟩ := step_next hstep
  obtain ⟨u, heffect, ht⟩ := exec_effect hexec
  have haligned := exec_pc_aligned (hasEncoding_of_decode hdecode) hinv.pcAligned hexec
  rw [ht]
  exact (heffect.keepsInv hinv).setPc haligned

end Sys2Proof.Machine
end

section
/-! PROOFS. Memory (spec/20_memory.md): which bytes an instruction changes, the program text over a run (R55), stored words
read back in parts (R43), fetching known bytes (R46), and words placed by the host. -/

namespace Sys2Proof.Machine

variable {s t : State}

/-! ## The bytes an instruction changes -/

/-- The memory after an instruction: as before, or as a store to the instruction's own target leaves it. -/
theorem exec_memory {i : Instr} (h : exec i s = .next t) :
    SameMemory s t ∨ ∃ addr n, storeTarget s i = some (addr, n) ∧
      (∀ a, n ≤ (a - addr).toNat → memByte t a = memByte s a) ∧
      ∀ a, wasStored t a = (wasStored s a || decide ((a - addr).toNat < n)) := by
  obtain ⟨u, heffect, ht⟩ := exec_effect h
  have hmem : t.mem = u.mem := by rw [ht]; rfl
  have hstored : t.stored = u.stored := by rw [ht]; rfl
  cases heffect with
  | none => exact .inl (sameMemory_of_eq hmem hstored)
  | reg rd v _ => exact .inl (sameMemory_of_eq (by simp [hmem]) (by simp [hstored]))
  | csr rd v a w _ _ _ => exact .inl (sameMemory_of_eq (by simp [hmem]) (by simp [hstored]))
  | store addr n bs htarget hl hn _ =>
    subst hl
    have hlen : bs.length ≤ 2 ^ 32 := by omega
    refine .inr ⟨addr, bs.length, htarget, fun a ha => ?_, fun a => ?_⟩
    · rw [memByte_congr hmem, memByte_storeBytes s addr bs hlen, if_neg (by omega)]
    · rw [wasStored_congr hstored, wasStored_storeBytes s addr bs hlen]

/-- Settles O38: a store changes and records the bytes of its own target only, and nothing else touches memory. -/
theorem onlyTheStoredBytesChange : Obligations.OnlyTheStoredBytesChange := by
  intro i s t h a houtside
  rcases exec_memory h with ⟨hmem, hstored⟩ | ⟨addr, n, htarget, hmem, hstored⟩
  · exact ⟨hmem a, hstored a⟩
  · have ha : n ≤ (a - addr).toNat := houtside addr n htarget
    exact ⟨hmem a ha, by rw [hstored, decide_eq_false (by omega), Bool.or_false]⟩

/-! ## The program text -/

/-- What does not count as stored in `t` holds what it holds in `s`, and does not count as stored there. -/
def UnstoredBytesKept (s t : State) : Prop :=
  ∀ a, wasStored t a = false → memByte t a = memByte s a ∧ wasStored s a = false

theorem UnstoredBytesKept.refl (s : State) : UnstoredBytesKept s s := fun _ ha => ⟨rfl, ha⟩

theorem UnstoredBytesKept.trans {u : State} (hsu : UnstoredBytesKept s u) (hut : UnstoredBytesKept u t) :
    UnstoredBytesKept s t := by
  intro a ha
  obtain ⟨hbyte, hu⟩ := hut a ha
  obtain ⟨hbyte', hs⟩ := hsu a hu
  exact ⟨hbyte.trans hbyte', hs⟩

/-- A store records every byte it changes. -/
theorem exec_unstoredBytesKept {i : Instr} (h : exec i s = .next t) : UnstoredBytesKept s t := by
  intro a ha
  rcases exec_memory h with ⟨hmem, hstored⟩ | ⟨addr, n, -, hmem, hstored⟩
  · exact ⟨hmem a, hstored a ▸ ha⟩
  · rw [hstored, Bool.or_eq_false_iff, decide_eq_false_iff_not, not_lt] at ha
    obtain ⟨hs, houtside⟩ := ha
    exact ⟨hmem a houtside, hs⟩

theorem step_unstoredBytesKept (h : step s = .next t) : UnstoredBytesKept s t := by
  obtain ⟨_, _, -, -, hexec⟩ := step_next h
  exact exec_unstoredBytesKept hexec

theorem run_unstoredBytesKept {n : Nat} (h : core.run n s = .next t) : UnstoredBytesKept s t :=
  run_induction (M := core) (R := UnstoredBytesKept) UnstoredBytesKept.refl
    (fun _ _ _ hstep hrest => (step_unstoredBytesKept hstep).trans hrest) h

/-- Settles O47: every step keeps the bytes that do not count as stored after it, so a run does, and `fetch` gives a word
of such bytes only. -/
theorem programTextIsFixed : Obligations.ProgramTextIsFixed := by
  intro n s t hrun
  have hkept : UnstoredBytesKept s t := run_unstoredBytesKept hrun
  refine ⟨hkept, fun ir hfetch => ?_⟩
  obtain ⟨-, -, hunstored, b0, b1, b2, b3, hbytes, hir⟩ := fetch_next hfetch
  refine ⟨b0, b1, b2, b3, fun k hk => ?_, hir⟩
  obtain ⟨hbyte, -⟩ := hkept _ (hunstored k hk)
  rw [← hbyte]
  exact hbytes k hk

/-! ## A completed store -/

/-- A store that answers a next state was aligned and mapped (else it faults), so it completed. -/
theorem store_next {i : Instr} {addr : Word} {n : Nat} {v len : Word} (h : exec i s = storeTo s addr n v len)
    (hn : n ≤ 2 ^ 32) (ht : exec i s = .next t) :
    addr.toNat % n = 0 ∧ AllMapped t addr n ∧ t.pc = s.pc + len ∧ BytesAre t addr (bytesOfWord n v) ∧
      ∀ a, (a - addr).toNat < n → wasStored t a = true := by
  have haligned : addr.toNat % n = 0 := by
    by_contra ha
    cases ht.symm.trans (storeMisaligned_of_storeTo h ha)
  have hmapped : AllMapped s addr n := by
    by_contra hm
    cases ht.symm.trans (storeStops_of_storeTo h haligned hm)
  obtain ⟨t', ht', hpc, -, -, hplatform, hbytes, -, hstored⟩ := storeCompletes_of_storeTo h hn haligned hmapped
  cases ht.symm.trans ht'
  refine ⟨haligned, fun k hk => ?_, hpc, hbytes, fun a ha => ?_⟩
  · rw [mapped_congr hplatform]
    exact hmapped k hk
  · rw [hstored, bytesOfWord_length, decide_eq_true ha, Bool.or_true]

/-- A step at an aligned, mapped pc refuses where a store has written one of its four bytes. -/
theorem step_of_wasStored (ha : s.pc.toNat % 4 = 0) (hm : AllMapped s s.pc 4) {k : Nat} (hk : k < 4)
    (hstored : wasStored s (s.pc + BitVec.ofNat 32 k) = true) : step s = .refused (.selfModifyingCode s.pc) := by
  have hfetch : fetch s = .refused (.selfModifyingCode s.pc) := by
    rcases fetch_cases s with ⟨ha', -⟩ | ⟨-, hm', -⟩ | ⟨-, -, ⟨-, e⟩ | ⟨hunstored, -⟩⟩
    · exact absurd ha ha'
    · exact absurd hm hm'
    · exact e
    · simp [hunstored k hk] at hstored
  simp [step, fetchInstr, hfetch, refuse]

/-- Settles O49: the word stored lies over the next pc, so that its first byte counts as stored. -/
theorem storeOverNextInstructionIsRefused : Obligations.StoreOverNextInstructionIsRefused := by
  intro s t rs1 rs2 imm _ hexec haddr
  obtain ⟨haligned, hmapped, hpc, -, hstored⟩ :=
    store_next (addr := baseOffset s rs1 imm) (n := 4) (v := readReg s rs2) rfl (by decide) hexec
  have hnext : t.pc = baseOffset s rs1 imm := hpc.trans haddr.symm
  rw [← hnext] at haligned hmapped hstored
  exact step_of_wasStored haligned hmapped (k := 0) (by decide) (hstored _ (by simp))

/-! ## Parts of a stored word -/

theorem AllMapped.part {addr : Word} {n : Nat} (h : AllMapped s addr n) {k m : Nat} (hkm : k + m ≤ n) :
    AllMapped s (addr + BitVec.ofNat 32 k) m := by
  intro j hj
  rw [BitVec.add_assoc, ← BitVec.ofNat_add]
  exact h (k + j) (by omega)

theorem bytesOfWord_getElem? (v : Word) {n j : Nat} (hj : j < n) :
    (bytesOfWord n v)[j]? = some ((v >>> (8 * j)).setWidth 8) := by
  induction n generalizing v j with
  | zero => omega
  | succ n ih => cases j with
    | zero => simp [bytesOfWord]
    | succ j =>
      rw [bytesOfWord, List.getElem?_cons_succ, ih _ (by omega), ← BitVec.shiftRight_add, mul_add, Nat.add_comm]

/-- Bytes `k` to `k + m - 1` of a word in memory are the lowest `m` bytes of the word shifted right by `k` bytes. -/
theorem BytesAre.part {addr v : Word} {n : Nat} (h : BytesAre s addr (bytesOfWord n v)) {k m : Nat}
    (hkm : k + m ≤ n) : BytesAre s (addr + BitVec.ofNat 32 k) (bytesOfWord m (v >>> (8 * k))) := by
  intro j hj
  rw [bytesOfWord_length] at hj
  have hbyte := h (k + j) (by rw [bytesOfWord_length]; omega)
  rw [bytesOfWord_getElem? v (by omega)] at hbyte
  rw [BitVec.add_assoc, ← BitVec.ofNat_add, hbyte, bytesOfWord_getElem? _ hj, ← BitVec.shiftRight_add,
    mul_add]

theorem toNat_shiftRight_bytes (v : Word) (k : Nat) : (v >>> (8 * k)).toNat = v.toNat / 256 ^ k := by
  rw [BitVec.toNat_ushiftRight, Nat.shiftRight_eq_div_pow, pow_mul]
  rfl

theorem toNat_zeroExtendByte_bytesOfWord (v : Word) :
    (zeroExtendByte (wordOfBytes (bytesOfWord 1 v))).toNat = v.toNat % 256 := by
  have hlt : v.toNat % 256 < 2 ^ 32 := by omega
  simpa [zeroExtendByte, wordOfBytes_one, bytesOfWord_one] using hlt

theorem toNat_zeroExtendHalf_bytesOfWord (v : Word) :
    (zeroExtendHalf (wordOfBytes (bytesOfWord 2 v))).toNat = v.toNat % 65536 := by
  have hpart : zeroExtendHalf (wordOfBytes (bytesOfWord 2 v)) = (v.extractLsb' 0 16).setWidth 32 := by
    rw [bytesOfWord_two, wordOfBytes_two, zeroExtendHalf]
    apply BitVec.eq_of_getLsbD_eq
    intro i hi
    simp only [BitVec.getLsbD_setWidth, BitVec.getLsbD_append, BitVec.getLsbD_extractLsb']
    interval_cases i <;> simp
  have hlt : v.toNat % 65536 < 2 ^ 32 := by omega
  simpa [hpart] using hlt

/-- A load of `m` bytes, `k` bytes into a word that stands in memory, completes with what its extension makes of that
part. -/
theorem completes_of_part {i : Instr} {addr a v : Word} {n k m : Nat} {ext : Word → Word} {rd : RegNum}
    {P : Word → Prop} (hm : AllMapped s addr n) (hb : BytesAre s addr (bytesOfWord n v))
    (h : exec i s = loadFrom s a m ext rd Config.ilen) (ha : a = addr + BitVec.ofNat 32 k) (hkm : k + m ≤ n)
    (haligned : a.toNat % m = 0) (hP : P (ext (wordOfBytes (bytesOfWord m (v >>> (8 * k)))))) :
    Completes i s rd P := by
  have hl : (bytesOfWord m (v >>> (8 * k))).length = m := bytesOfWord_length m _
  refine completesBy_of_loadFrom (addr := a) (bs := bytesOfWord m (v >>> (8 * k))) ?_ ?_ ?_ ?_ hP
  · rw [hl]; exact h
  · rw [hl]; exact haligned
  · rw [hl, ha]; exact hm.part hkm
  · rw [ha]; exact hb.part hkm

/-- Settles O21: after SW the word stands in memory, and each load reads its part of it. -/
theorem storedWordReadsBackInParts : Obligations.StoredWordReadsBackInParts := by
  intro s t rs1 rs2 imm hexec rd r imm' k haddr
  obtain ⟨haligned, hmapped, -, hbytes, -⟩ :=
    store_next (addr := baseOffset s rs1 imm) (n := 4) (v := readReg s rs2) rfl (by decide) hexec
  refine ⟨fun hk => ?_, fun hk => ?_, fun hk => ?_⟩
  · refine completes_of_part hmapped hbytes (m := 1) rfl haddr (by omega) (Nat.mod_one _) ?_
    rw [toNat_zeroExtendByte_bytesOfWord, toNat_shiftRight_bytes]
  · refine completes_of_part hmapped hbytes (m := 2) rfl haddr (by omega) ?_ ?_
    · rcases hk with rfl | rfl <;> bv_omega
    · rw [toNat_zeroExtendHalf_bytesOfWord, toNat_shiftRight_bytes]
  · subst hk
    refine completes_of_part hmapped hbytes (m := 4) rfl haddr (by decide) (by bv_omega) ?_
    rw [wordOfBytes_bytesOfWord]
    simp

/-! ## Fetching known bytes -/

/-- `fetch` where it succeeds. -/
theorem fetch_of_bytesAre {bs : List Byte} (hl : bs.length = 4) (ha : s.pc.toNat % 4 = 0) (hm : AllMapped s s.pc 4)
    (hunstored : ∀ k < 4, wasStored s (s.pc + BitVec.ofNat 32 k) = false) (hb : BytesAre s s.pc bs) :
    fetch s = .next (wordOfBytes bs) := by
  have hread : readBytes s (byteAddrs s.pc 4) = .ok bs := hl ▸ readBytes_of_bytesAre s hb
  have hany : ¬ (byteAddrs s.pc 4).any (wasStored s) = true := by
    rw [any_wasStored_iff]
    rintro ⟨k, hk, hstored⟩
    simp [hunstored k hk] at hstored
  rw [fetch, if_neg (by simpa [Config.ialign] using ha), if_neg (by simp [(all_mapped_iff s s.pc 4).mpr hm]),
    if_neg hany, hread]

/-- A step at a word that decodes to an instruction executes that. -/
theorem step_of_decode {ir : Word} {i : Instr} (hfetch : fetch s = .next ir) (hdecode : decode ir = .instr i) :
    step s = exec i s := by
  rw [step_of_fetch hfetch, hdecode]

/-- Settles O6: the fetch gives the little-endian word of the four bytes. -/
theorem stepRunsDecodedInstruction : Obligations.StepRunsDecodedInstruction := by
  intro s b0 b1 b2 b3 i ha hm hunstored hb hdecode
  rw [← wordOfBytes_four] at hdecode
  exact step_of_decode (fetch_of_bytesAre rfl ha hm hunstored hb) hdecode

/-! ## Words placed by the host -/

/-- Placing bytes is on the memory and the set of stored bytes only. -/
theorem placeBytes_eq (s : State) (as : List Word) (bs : List Byte) :
    placeBytes s as bs = (s.setMem (placeBytes s as bs).mem).setStored (placeBytes s as bs).stored := by
  induction as generalizing s bs with
  | nil => rfl
  | cons a as ih => cases bs with
    | nil => rfl
    | cons b bs => exact ih (placeByte s a b) bs

@[simp] theorem platform_placeBytes (s : State) (as : List Word) (bs : List Byte) :
    (placeBytes s as bs).platform = s.platform :=
  (congrArg State.platform (placeBytes_eq s as bs)).trans rfl

@[simp] theorem regs_placeBytes (s : State) (as : List Word) (bs : List Byte) : (placeBytes s as bs).regs = s.regs :=
  (congrArg State.regs (placeBytes_eq s as bs)).trans rfl

@[simp] theorem pc_placeBytes (s : State) (as : List Word) (bs : List Byte) : (placeBytes s as bs).pc = s.pc :=
  (congrArg State.pc (placeBytes_eq s as bs)).trans rfl

@[simp] theorem csrs_placeBytes (s : State) (as : List Word) (bs : List Byte) : (placeBytes s as bs).csrs = s.csrs :=
  (congrArg State.csrs (placeBytes_eq s as bs)).trans rfl

/-- Placing bytes leaves the memory that storing them leaves. -/
theorem mem_placeBytes (h : s.mem = t.mem) (as : List Word) (bs : List Byte) :
    (placeBytes s as bs).mem = (storeBytes t as bs).mem := by
  induction as generalizing s t bs with
  | nil => exact h
  | cons a as ih => cases bs with
    | nil => exact h
    | cons b bs => exact ih (by simp [placeByte, storeByte, h]) bs

/-- Placed bytes count as not stored. -/
theorem wasStored_placeBytes (s : State) (as : List Word) (bs : List Byte) (hl : as.length = bs.length) {a : Word}
    (ha : a ∈ as ∨ wasStored s a = false) : wasStored (placeBytes s as bs) a = false := by
  induction as generalizing s bs with
  | nil => simpa [placeBytes] using ha
  | cons c as ih => cases bs with
    | nil => cases hl
    | cons b bs =>
      refine ih (placeByte s c b) bs (by simpa using hl) ?_
      rw [wasStored_placeByte]
      rcases ha with ha | ha
      · rcases List.mem_cons.mp ha with rfl | ha
        · exact .inr (by simp)
        · exact .inl ha
      · exact .inr (by simp [ha])

theorem bytesAre_placeBytes (s : State) (addr : Word) (bs : List Byte) (h : bs.length ≤ 2 ^ 32) :
    BytesAre (placeBytes s (byteAddrs addr bs.length) bs) addr bs := by
  intro k hk
  have hoffset : (addr + BitVec.ofNat 32 k - addr).toNat = k := by
    rw [BitVec.add_comm, BitVec.add_sub_cancel, BitVec.toNat_ofNat, Nat.mod_eq_of_lt (by omega)]
  rw [memByte_congr (mem_placeBytes rfl _ bs), memByte_storeBytes s addr bs h, hoffset, if_pos hk]

theorem toNat_fetchBase (s : State) : (fetchBase s).toNat = s.pc.toNat / 4 * 4 := by
  have hshift : fetchBase s = s.pc >>> 2 <<< 2 := by
    apply BitVec.eq_of_getLsbD_eq
    intro i hi
    simp only [fetchBase, BitVec.getLsbD_and, BitVec.getLsbD_shiftLeft, BitVec.getLsbD_ushiftRight]
    interval_cases i <;> simp
  rw [hshift, BitVec.toNat_shiftLeft, BitVec.toNat_ushiftRight, Nat.shiftRight_eq_div_pow, Nat.shiftLeft_eq]
  omega

theorem fetchBase_of_aligned (h : s.pc.toNat % 4 = 0) : fetchBase s = s.pc :=
  BitVec.eq_of_toNat_eq (by rw [toNat_fetchBase]; omega)

/-- `mapFetch` is on the parameters only. -/
theorem mapFetch_eq (s : State) : mapFetch s = s.setPlatform (mapFetch s).platform := by
  unfold mapFetch; split <;> rfl

@[simp] theorem regs_mapFetch (s : State) : (mapFetch s).regs = s.regs :=
  (congrArg State.regs (mapFetch_eq s)).trans rfl

@[simp] theorem pc_mapFetch (s : State) : (mapFetch s).pc = s.pc :=
  (congrArg State.pc (mapFetch_eq s)).trans rfl

@[simp] theorem csrs_mapFetch (s : State) : (mapFetch s).csrs = s.csrs :=
  (congrArg State.csrs (mapFetch_eq s)).trans rfl

/-- The run of addresses added at an aligned pc does not wrap around. -/
theorem allMapped_mapFetch (h : s.pc.toNat % 4 = 0) : AllMapped (mapFetch s) s.pc 4 := by
  unfold mapFetch
  split
  next hm => exact (all_mapped_iff s s.pc 4).mp hm
  next =>
    intro k hk
    have hspan : s.pc.toNat ≤ (s.pc + BitVec.ofNat 32 k).toNat ∧
        (s.pc + BitVec.ofNat 32 k).toNat < s.pc.toNat + 4 := by bv_omega
    simp only [mapped, inSpans, platform_setPlatform, List.any_cons, Bool.or_eq_true, Bool.and_eq_true,
      decide_eq_true_eq]
    exact .inl hspan

theorem withFetchWord_toNat (s : State) (w : Word) : s.withFetchWord 32 w.toNat = placeWord s w := by
  rw [State.withFetchWord, Nat.mod_eq_of_lt w.isLt, BitVec.ofNat_toNat, BitVec.setWidth_eq]

theorem pc_placeWord (s : State) (w : Word) : (placeWord s w).pc = fetchBase s := by simp [placeWord]

theorem platform_placeWord (s : State) (w : Word) :
    (placeWord s w).platform = (mapFetch (s.setPc (fetchBase s))).platform := by simp [placeWord]

theorem regs_placeWord (s : State) (w : Word) : (placeWord s w).regs = s.regs := by simp [placeWord]

theorem csrs_placeWord (s : State) (w : Word) : (placeWord s w).csrs = s.csrs := by simp [placeWord]

/-- `placeWord` sets all that the fetch of the word needs: alignment, MEM_MAP, the stored bytes, the values. -/
theorem fetch_placeWord (s : State) (w : Word) : fetch (placeWord s w) = .next w := by
  have haligned : (fetchBase s).toNat % 4 = 0 := by rw [toNat_fetchBase]; omega
  have hl : (bytesOfWord 4 w).length = 4 := bytesOfWord_length 4 w
  rw [fetch_of_bytesAre hl, wordOfBytes_bytesOfWord] <;> rw [pc_placeWord]
  case ha => exact haligned
  case hm =>
    intro k hk
    rw [mapped_congr (platform_placeWord s w)]
    exact allMapped_mapFetch (s := s.setPc (fetchBase s)) haligned k hk
  case hunstored =>
    intro k hk
    exact wasStored_placeBytes _ _ _ rfl (.inl ((mem_byteAddrs _ _ _).mpr ⟨k, hk, rfl⟩))
  case hb => exact bytesAre_placeBytes _ _ (bytesOfWord 4 w) (by rw [hl]; decide)

/-- Settles O8: the state is the one `placeWord` gives, which fetches the word. -/
theorem placedWordIsFetched : Obligations.PlacedWordIsFetched := by
  intro s w
  rw [withFetchWord_toNat]
  refine ⟨fetch_placeWord s w, fun ha => ?_, readReg_congr (regs_placeWord s w), readCsr_congr (csrs_placeWord s w),
    fun i hdecode => step_of_decode (fetch_placeWord s w) hdecode⟩
  rw [pc_placeWord, fetchBase_of_aligned ha]

end Sys2Proof.Machine
end

section
/-! PROOFS. The encoder, said once: a word is the encoding of some fields in a format exactly when those are the fields
standing in the word (spec/30_encoding.md R71 to R85), and a mask of R87 keeps exactly the function fields. -/

namespace Sys2Proof

/-! ## The function fields -/

/-- `opcode = IR[6:0]` (R71). -/
def fieldOpcode (w : Word) : BitVec 7 := w.extractLsb' 0 7

/-- `funct3 = IR[14:12]` (R71). -/
def fieldFunct3 (w : Word) : BitVec 3 := w.extractLsb' 12 3

/-- `funct7 = IR[31:25]` (R71). -/
def fieldFunct7 (w : Word) : BitVec 7 := w.extractLsb' 25 7

/-! ## Fields side by side -/

/-- Two fields side by side are a slice exactly when they are its two parts. -/
theorem append_eq_slice_iff {a b n : Nat} (x : BitVec a) (y : BitVec b) (w : BitVec n) (start : Nat) :
    x ++ y = w.extractLsb' start (a + b) ↔ x = w.extractLsb' (start + b) a ∧ y = w.extractLsb' start b := by
  rw [← BitVec.extractLsb'_append_extractLsb'_eq_extractLsb' (x := w) (rfl : start + b = start + b)]
  constructor
  · intro h
    have hx := congrArg (·.extractLsb' b a) h
    have hy := congrArg (·.extractLsb' 0 b) h
    simp only [BitVec.extractLsb'_append_eq_left, BitVec.extractLsb'_append_eq_right] at hx hy
    exact ⟨hx, hy⟩
  · rintro ⟨rfl, rfl⟩
    rfl

theorem eq_iff_eq_slice {n : Nat} (v w : BitVec n) : v = w ↔ v = w.extractLsb' 0 n := by
  rw [BitVec.extractLsb'_eq_self]

theorem zero_eq_slice_iff {n : Nat} (off : BitVec n) : 0#1 = off.extractLsb' 0 1 ↔ off.getLsbD 0 = false := by
  constructor
  · intro h
    simpa using (congrArg (·.getLsbD 0) h).symm
  · intro h
    apply BitVec.eq_of_getLsbD_eq
    intro i hi
    obtain rfl : i = 0 := by omega
    simpa using h.symm

/-! ## The immediates in two or more parts -/

variable {w : Word}

theorem eq_fieldImmS_iff {imm : BitVec 12} :
    imm = fieldImmS w ↔ imm.extractLsb' 5 7 = w.extractLsb' 25 7 ∧ imm.extractLsb' 0 5 = w.extractLsb' 7 5 := by
  unfold fieldImmS
  rw [eq_comm, eq_iff_eq_slice, append_eq_slice_iff]
  simp only [eq_comm]

theorem eq_fieldOffB_iff {off : BitVec 13} :
    off = fieldOffB w ↔ off.extractLsb' 12 1 = w.extractLsb' 31 1 ∧ off.extractLsb' 11 1 = w.extractLsb' 7 1 ∧
      off.extractLsb' 5 6 = w.extractLsb' 25 6 ∧ off.extractLsb' 1 4 = w.extractLsb' 8 4 ∧ off.getLsbD 0 = false := by
  unfold fieldOffB
  rw [eq_comm, eq_iff_eq_slice, ← zero_eq_slice_iff]
  iterate 4 rw [append_eq_slice_iff]
  simp only [and_assoc, eq_comm]

theorem eq_fieldOffJ_iff {off : BitVec 21} :
    off = fieldOffJ w ↔ off.extractLsb' 20 1 = w.extractLsb' 31 1 ∧ off.extractLsb' 12 8 = w.extractLsb' 12 8 ∧
      off.extractLsb' 11 1 = w.extractLsb' 20 1 ∧ off.extractLsb' 1 10 = w.extractLsb' 21 10 ∧
      off.getLsbD 0 = false := by
  unfold fieldOffJ
  rw [eq_comm, eq_iff_eq_slice, ← zero_eq_slice_iff]
  iterate 4 rw [append_eq_slice_iff]
  simp only [and_assoc, eq_comm]

theorem fieldOffB_bit0 (w : Word) : (fieldOffB w).getLsbD 0 = false := by
  obtain ⟨-, -, -, -, h⟩ := eq_fieldOffB_iff.mp (rfl : fieldOffB w = fieldOffB w)
  exact h

theorem fieldOffJ_bit0 (w : Word) : (fieldOffJ w).getLsbD 0 = false := by
  obtain ⟨-, -, -, -, h⟩ := eq_fieldOffJ_iff.mp (rfl : fieldOffJ w = fieldOffJ w)
  exact h

/-! ## The six formats -/

variable {funct7 : BitVec 7} {rs2 rs1 : RegNum} {funct3 : BitVec 3} {rd : RegNum} {opcode : BitVec 7}

theorem encodeR_eq_iff : encodeR funct7 rs2 rs1 funct3 rd opcode = w ↔
    funct7 = fieldFunct7 w ∧ rs2 = fieldRs2 w ∧ rs1 = fieldRs1 w ∧ funct3 = fieldFunct3 w ∧ rd = fieldRd w ∧
      opcode = fieldOpcode w := by
  unfold encodeR
  rw [eq_iff_eq_slice]
  iterate 5 rw [append_eq_slice_iff]
  simp only [and_assoc]
  rfl

theorem encodeI_eq_iff {imm : BitVec 12} : encodeI imm rs1 funct3 rd opcode = w ↔
    imm = fieldImmI w ∧ rs1 = fieldRs1 w ∧ funct3 = fieldFunct3 w ∧ rd = fieldRd w ∧ opcode = fieldOpcode w := by
  unfold encodeI
  rw [eq_iff_eq_slice]
  iterate 4 rw [append_eq_slice_iff]
  simp only [and_assoc]
  rfl

theorem encodeS_eq_iff {imm : BitVec 12} : encodeS imm rs2 rs1 funct3 opcode = w ↔
    imm = fieldImmS w ∧ rs2 = fieldRs2 w ∧ rs1 = fieldRs1 w ∧ funct3 = fieldFunct3 w ∧ opcode = fieldOpcode w := by
  unfold encodeS
  rw [eq_iff_eq_slice, eq_fieldImmS_iff]
  iterate 5 rw [append_eq_slice_iff]
  simp only [fieldRs1, fieldRs2, fieldFunct3, fieldOpcode]
  tauto

theorem encodeB_eq_iff {off : BitVec 13} (h : off.getLsbD 0 = false) : encodeB off rs2 rs1 funct3 opcode = w ↔
    off = fieldOffB w ∧ rs2 = fieldRs2 w ∧ rs1 = fieldRs1 w ∧ funct3 = fieldFunct3 w ∧ opcode = fieldOpcode w := by
  unfold encodeB
  rw [eq_iff_eq_slice, eq_fieldOffB_iff]
  iterate 7 rw [append_eq_slice_iff]
  simp only [fieldRs1, fieldRs2, fieldFunct3, fieldOpcode]
  tauto

theorem encodeU_eq_iff {imm : BitVec 20} : encodeU imm rd opcode = w ↔
    imm = fieldImmU w ∧ rd = fieldRd w ∧ opcode = fieldOpcode w := by
  unfold encodeU
  rw [eq_iff_eq_slice]
  iterate 2 rw [append_eq_slice_iff]
  simp only [and_assoc]
  rfl

theorem encodeJ_eq_iff {off : BitVec 21} (h : off.getLsbD 0 = false) : encodeJ off rd opcode = w ↔
    off = fieldOffJ w ∧ rd = fieldRd w ∧ opcode = fieldOpcode w := by
  unfold encodeJ
  rw [eq_iff_eq_slice, eq_fieldOffJ_iff]
  iterate 5 rw [append_eq_slice_iff]
  simp only [fieldRd, fieldOpcode]
  tauto

/-! ## The masks -/

theorem and_ones7 (x : BitVec 7) : x &&& 127#7 = x := BitVec.and_allOnes

theorem and_ones3 (x : BitVec 3) : x &&& 7#3 = x := BitVec.and_allOnes

theorem encodeU_eq_and_maskOp_iff : encodeU 0 0 opcode = w &&& maskOp ↔ opcode = fieldOpcode w := by
  rw [encodeU_eq_iff]
  simp [fieldImmU, fieldRd, fieldOpcode, BitVec.extractLsb'_and, maskOp, and_ones7]

theorem encodeI_eq_and_maskOpF3_iff : encodeI 0 0 funct3 0 opcode = w &&& maskOpF3 ↔
    funct3 = fieldFunct3 w ∧ opcode = fieldOpcode w := by
  rw [encodeI_eq_iff]
  simp [fieldImmI, fieldRs1, fieldFunct3, fieldRd, fieldOpcode, BitVec.extractLsb'_and, maskOpF3, and_ones7, and_ones3]

theorem encodeR_eq_and_maskOpF3F7_iff : encodeR funct7 0 0 funct3 0 opcode = w &&& maskOpF3F7 ↔
    funct7 = fieldFunct7 w ∧ funct3 = fieldFunct3 w ∧ opcode = fieldOpcode w := by
  rw [encodeR_eq_iff]
  simp [fieldFunct7, fieldRs2, fieldRs1, fieldFunct3, fieldRd, fieldOpcode, BitVec.extractLsb'_and, maskOpF3F7,
    and_ones7, and_ones3]

end Sys2Proof
end

section
/-! PROOFS. Decoder and encoder against each other (spec/30_encoding.md R87, R90, R91): each row of the opcode map
builds an instruction whose word is the one decoded, and the word of each instruction is under its row. -/

namespace Sys2Proof

/-! ## From the word: what a row builds -/

/-- What the row builds from a word under its pattern is well-formed and has that word. -/
def OpcodeRow.Spells (r : OpcodeRow) : Prop :=
  ∀ w, w &&& r.mask = r.pattern → wellFormed (r.build w) = true ∧ encode (r.build w) = some w

section
variable {name : String} {p : Word} {funct7 : BitVec 7} {funct3 : BitVec 3} {opcode : BitVec 7}

theorem spells_of_encodeU {mk : RegNum → BitVec 20 → Instr}
    (he : ∀ rd imm, encode (mk rd imm) = some (encodeU imm rd opcode)) (hwf : ∀ rd imm, wellFormed (mk rd imm) = true)
    (hp : encodeU 0 0 opcode = p) :
    OpcodeRow.Spells ⟨name, p, maskOp, fun w => mk (fieldRd w) (fieldImmU w)⟩ := by
  intro w h
  have hop := encodeU_eq_and_maskOp_iff.mp (hp.trans h.symm)
  exact ⟨hwf _ _, (he _ _).trans (congrArg some (encodeU_eq_iff.mpr ⟨rfl, rfl, hop⟩))⟩

theorem spells_of_encodeJ {mk : RegNum → BitVec 21 → Instr}
    (he : ∀ rd off, encode (mk rd off) = some (encodeJ off rd opcode))
    (hwf : ∀ rd off, wellFormed (mk rd off) = (!off.getLsbD 0 && true)) (hp : encodeU 0 0 opcode = p) :
    OpcodeRow.Spells ⟨name, p, maskOp, fun w => mk (fieldRd w) (fieldOffJ w)⟩ := by
  intro w h
  have hop := encodeU_eq_and_maskOp_iff.mp (hp.trans h.symm)
  have hbit := fieldOffJ_bit0 w
  exact ⟨by rw [hwf, hbit]; rfl, (he _ _).trans (congrArg some ((encodeJ_eq_iff hbit).mpr ⟨rfl, rfl, hop⟩))⟩

theorem spells_of_encodeI {mk : RegNum → RegNum → BitVec 12 → Instr}
    (he : ∀ rd rs1 imm, encode (mk rd rs1 imm) = some (encodeI imm rs1 funct3 rd opcode))
    (hwf : ∀ rd rs1 imm, wellFormed (mk rd rs1 imm) = true) (hp : encodeI 0 0 funct3 0 opcode = p) :
    OpcodeRow.Spells ⟨name, p, maskOpF3, fun w => mk (fieldRd w) (fieldRs1 w) (fieldImmI w)⟩ := by
  intro w h
  obtain ⟨hf3, hop⟩ := encodeI_eq_and_maskOpF3_iff.mp (hp.trans h.symm)
  exact ⟨hwf _ _ _, (he _ _ _).trans (congrArg some (encodeI_eq_iff.mpr ⟨rfl, rfl, hf3, rfl, hop⟩))⟩

/-- The CSR variant of format I: the CSR address stands where the immediate stands (R85). -/
theorem spells_of_encodeCsr {mk : RegNum → CsrAddr → BitVec 5 → Instr}
    (he : ∀ rd csr src, encode (mk rd csr src) = some (encodeI csr src funct3 rd opcode))
    (hwf : ∀ rd csr src, wellFormed (mk rd csr src) = true) (hp : encodeI 0 0 funct3 0 opcode = p) :
    OpcodeRow.Spells ⟨name, p, maskOpF3, fun w => mk (fieldRd w) (fieldCsr w) (fieldRs1 w)⟩ :=
  spells_of_encodeI (mk := fun rd src csr => mk rd csr src) (fun _ _ _ => he _ _ _) (fun _ _ _ => hwf _ _ _) hp

theorem spells_of_encodeS {mk : RegNum → RegNum → BitVec 12 → Instr}
    (he : ∀ rs1 rs2 imm, encode (mk rs1 rs2 imm) = some (encodeS imm rs2 rs1 funct3 opcode))
    (hwf : ∀ rs1 rs2 imm, wellFormed (mk rs1 rs2 imm) = true) (hp : encodeI 0 0 funct3 0 opcode = p) :
    OpcodeRow.Spells ⟨name, p, maskOpF3, fun w => mk (fieldRs1 w) (fieldRs2 w) (fieldImmS w)⟩ := by
  intro w h
  obtain ⟨hf3, hop⟩ := encodeI_eq_and_maskOpF3_iff.mp (hp.trans h.symm)
  exact ⟨hwf _ _ _, (he _ _ _).trans (congrArg some (encodeS_eq_iff.mpr ⟨rfl, rfl, rfl, hf3, hop⟩))⟩

theorem spells_of_encodeB {mk : RegNum → RegNum → BitVec 13 → Instr}
    (he : ∀ rs1 rs2 off, encode (mk rs1 rs2 off) = some (encodeB off rs2 rs1 funct3 opcode))
    (hwf : ∀ rs1 rs2 off, wellFormed (mk rs1 rs2 off) = (!off.getLsbD 0 && true))
    (hp : encodeI 0 0 funct3 0 opcode = p) :
    OpcodeRow.Spells ⟨name, p, maskOpF3, fun w => mk (fieldRs1 w) (fieldRs2 w) (fieldOffB w)⟩ := by
  intro w h
  obtain ⟨hf3, hop⟩ := encodeI_eq_and_maskOpF3_iff.mp (hp.trans h.symm)
  have hbit := fieldOffB_bit0 w
  exact ⟨by rw [hwf, hbit]; rfl,
    (he _ _ _).trans (congrArg some ((encodeB_eq_iff hbit).mpr ⟨rfl, rfl, rfl, hf3, hop⟩))⟩

theorem spells_of_encodeR {mk : RegNum → RegNum → RegNum → Instr}
    (he : ∀ rd rs1 rs2, encode (mk rd rs1 rs2) = some (encodeR funct7 rs2 rs1 funct3 rd opcode))
    (hwf : ∀ rd rs1 rs2, wellFormed (mk rd rs1 rs2) = true) (hp : encodeR funct7 0 0 funct3 0 opcode = p) :
    OpcodeRow.Spells ⟨name, p, maskOpF3F7, fun w => mk (fieldRd w) (fieldRs1 w) (fieldRs2 w)⟩ := by
  intro w h
  obtain ⟨hf7, hf3, hop⟩ := encodeR_eq_and_maskOpF3F7_iff.mp (hp.trans h.symm)
  exact ⟨hwf _ _ _, (he _ _ _).trans (congrArg some (encodeR_eq_iff.mpr ⟨hf7, rfl, rfl, hf3, rfl, hop⟩))⟩

end

theorem rowsUJ_spell : ∀ r ∈ rowsUJ, r.Spells := by
  simp only [rowsUJ, List.forall_mem_cons]
  refine ⟨?auipc, ?lui, ?jal, ?jalr, List.forall_mem_nil _⟩
  case auipc | lui => exact spells_of_encodeU (fun _ _ => rfl) (fun _ _ => rfl) rfl
  case jal => exact spells_of_encodeJ (fun _ _ => rfl) (fun _ _ => rfl) rfl
  case jalr => exact spells_of_encodeI (fun _ _ _ => rfl) (fun _ _ _ => rfl) rfl

theorem rowsB_spell : ∀ r ∈ rowsB, r.Spells := by
  simp only [rowsB, List.forall_mem_cons]
  refine ⟨?_, ?_, ?_, ?_, ?_, ?_, List.forall_mem_nil _⟩ <;>
    exact spells_of_encodeB (fun _ _ _ => rfl) (fun _ _ _ => rfl) rfl

theorem rowsMem_spell : ∀ r ∈ rowsMem, r.Spells := by
  simp only [rowsMem, List.forall_mem_cons]
  refine ⟨?lb, ?lh, ?lw, ?lbu, ?lhu, ?sb, ?sh, ?sw, List.forall_mem_nil _⟩
  case lb | lh | lw | lbu | lhu => exact spells_of_encodeI (fun _ _ _ => rfl) (fun _ _ _ => rfl) rfl
  case sb | sh | sw => exact spells_of_encodeS (fun _ _ _ => rfl) (fun _ _ _ => rfl) rfl

theorem rowsImm_spell : ∀ r ∈ rowsImm, r.Spells := by
  simp only [rowsImm, List.forall_mem_cons]
  refine ⟨?addi, ?slti, ?sltiu, ?xori, ?ori, ?andi, ?slli, ?srli, ?srai, List.forall_mem_nil _⟩
  case addi | slti | sltiu | xori | ori | andi => exact spells_of_encodeI (fun _ _ _ => rfl) (fun _ _ _ => rfl) rfl
  case slli | srli | srai => exact spells_of_encodeR (fun _ _ _ => rfl) (fun _ _ _ => rfl) rfl

theorem rowsReg_spell : ∀ r ∈ rowsReg, r.Spells := by
  simp only [rowsReg, List.forall_mem_cons]
  refine ⟨?_, ?_, ?_, ?_, ?_, ?_, ?_, ?_, ?_, ?_, ?_, List.forall_mem_nil _⟩ <;>
    exact spells_of_encodeR (fun _ _ _ => rfl) (fun _ _ _ => rfl) rfl

theorem rowsCsr_spell : ∀ r ∈ rowsCsr, r.Spells := by
  simp only [rowsCsr, List.forall_mem_cons]
  refine ⟨?_, ?_, ?_, ?_, ?_, ?_, List.forall_mem_nil _⟩ <;>
    exact spells_of_encodeCsr (fun _ _ _ => rfl) (fun _ _ _ => rfl) rfl

theorem opcodeTable_spells : ∀ r ∈ opcodeTable, r.Spells := by
  simp only [opcodeTable, List.forall_mem_append]
  exact ⟨⟨⟨⟨⟨rowsUJ_spell, rowsB_spell⟩, rowsMem_spell⟩, rowsImm_spell⟩, rowsReg_spell⟩, rowsCsr_spell⟩

/-- Settles O2: the word is under a row's pattern, and the row spells it. -/
theorem encodeOfDecode : Obligations.EncodeOfDecode := by
  intro w i h
  obtain ⟨r, hr, hw, rfl⟩ := row_of_decode h
  exact opcodeTable_spells r hr w hw

/-! ## To the word: the row an instruction is under -/

/-- The check of an offset (R80, R82), as `wellFormed` makes it of a branch or of JAL. -/
theorem bit0_of_check {n : Nat} {off : BitVec n} (h : (!off.getLsbD 0 && true) = true) : off.getLsbD 0 = false := by
  simpa using h

section
variable {funct7 : BitVec 7} {rs2 rs1 : RegNum} {funct3 : BitVec 3} {rd : RegNum} {opcode : BitVec 7}

theorem decode_encodeU {mk : RegNum → BitVec 20 → Instr} {imm : BitVec 20} (name : String) (p : Word)
    (hr : ⟨name, p, maskOp, fun w => mk (fieldRd w) (fieldImmU w)⟩ ∈ opcodeTable) (hp : encodeU 0 0 opcode = p) :
    decode (encodeU imm rd opcode) = .instr (mk rd imm) := by
  generalize h : encodeU imm rd opcode = w
  obtain ⟨rfl, rfl, hop⟩ := encodeU_eq_iff.mp h
  exact decode_of_row hr ((encodeU_eq_and_maskOp_iff.mpr hop).symm.trans hp)

theorem decode_encodeJ {mk : RegNum → BitVec 21 → Instr} {off : BitVec 21} (name : String) (p : Word)
    (hr : ⟨name, p, maskOp, fun w => mk (fieldRd w) (fieldOffJ w)⟩ ∈ opcodeTable) (hp : encodeU 0 0 opcode = p)
    (hcheck : (!off.getLsbD 0 && true) = true) :
    decode (encodeJ off rd opcode) = .instr (mk rd off) := by
  generalize h : encodeJ off rd opcode = w
  obtain ⟨rfl, rfl, hop⟩ := (encodeJ_eq_iff (bit0_of_check hcheck)).mp h
  exact decode_of_row hr ((encodeU_eq_and_maskOp_iff.mpr hop).symm.trans hp)

theorem decode_encodeI {mk : RegNum → RegNum → BitVec 12 → Instr} {imm : BitVec 12} (name : String) (p : Word)
    (hr : ⟨name, p, maskOpF3, fun w => mk (fieldRd w) (fieldRs1 w) (fieldImmI w)⟩ ∈ opcodeTable)
    (hp : encodeI 0 0 funct3 0 opcode = p) :
    decode (encodeI imm rs1 funct3 rd opcode) = .instr (mk rd rs1 imm) := by
  generalize h : encodeI imm rs1 funct3 rd opcode = w
  obtain ⟨rfl, rfl, hf3, rfl, hop⟩ := encodeI_eq_iff.mp h
  exact decode_of_row hr ((encodeI_eq_and_maskOpF3_iff.mpr ⟨hf3, hop⟩).symm.trans hp)

theorem decode_encodeCsr {mk : RegNum → CsrAddr → BitVec 5 → Instr} {csr : CsrAddr} (name : String) (p : Word)
    (hr : ⟨name, p, maskOpF3, fun w => mk (fieldRd w) (fieldCsr w) (fieldRs1 w)⟩ ∈ opcodeTable)
    (hp : encodeI 0 0 funct3 0 opcode = p) :
    decode (encodeI csr rs1 funct3 rd opcode) = .instr (mk rd csr rs1) :=
  decode_encodeI (mk := fun rd src csr => mk rd csr src) name p hr hp

theorem decode_encodeS {mk : RegNum → RegNum → BitVec 12 → Instr} {imm : BitVec 12} (name : String) (p : Word)
    (hr : ⟨name, p, maskOpF3, fun w => mk (fieldRs1 w) (fieldRs2 w) (fieldImmS w)⟩ ∈ opcodeTable)
    (hp : encodeI 0 0 funct3 0 opcode = p) :
    decode (encodeS imm rs2 rs1 funct3 opcode) = .instr (mk rs1 rs2 imm) := by
  generalize h : encodeS imm rs2 rs1 funct3 opcode = w
  obtain ⟨rfl, rfl, rfl, hf3, hop⟩ := encodeS_eq_iff.mp h
  exact decode_of_row hr ((encodeI_eq_and_maskOpF3_iff.mpr ⟨hf3, hop⟩).symm.trans hp)

theorem decode_encodeB {mk : RegNum → RegNum → BitVec 13 → Instr} {off : BitVec 13} (name : String) (p : Word)
    (hr : ⟨name, p, maskOpF3, fun w => mk (fieldRs1 w) (fieldRs2 w) (fieldOffB w)⟩ ∈ opcodeTable)
    (hp : encodeI 0 0 funct3 0 opcode = p) (hcheck : (!off.getLsbD 0 && true) = true) :
    decode (encodeB off rs2 rs1 funct3 opcode) = .instr (mk rs1 rs2 off) := by
  generalize h : encodeB off rs2 rs1 funct3 opcode = w
  obtain ⟨rfl, rfl, rfl, hf3, hop⟩ := (encodeB_eq_iff (bit0_of_check hcheck)).mp h
  exact decode_of_row hr ((encodeI_eq_and_maskOpF3_iff.mpr ⟨hf3, hop⟩).symm.trans hp)

theorem decode_encodeR {mk : RegNum → RegNum → RegNum → Instr} (name : String) (p : Word)
    (hr : ⟨name, p, maskOpF3F7, fun w => mk (fieldRd w) (fieldRs1 w) (fieldRs2 w)⟩ ∈ opcodeTable)
    (hp : encodeR funct7 0 0 funct3 0 opcode = p) :
    decode (encodeR funct7 rs2 rs1 funct3 rd opcode) = .instr (mk rd rs1 rs2) := by
  generalize h : encodeR funct7 rs2 rs1 funct3 rd opcode = w
  obtain ⟨hf7, rfl, rfl, hf3, rfl, hop⟩ := encodeR_eq_iff.mp h
  exact decode_of_row hr ((encodeR_eq_and_maskOpF3F7_iff.mpr ⟨hf7, hf3, hop⟩).symm.trans hp)

end

/-- Settles O1: the word of each instruction is under the instruction's row, named here with its pattern. -/
theorem decodeOfEncode : Obligations.DecodeOfEncode := by
  intro i h
  cases i with
  | auipc rd imm => exact ⟨_, rfl, decode_encodeU "AUIPC" 0x00000017#32 (by simp [opcodeTable, rowsUJ]) rfl⟩
  | lui rd imm => exact ⟨_, rfl, decode_encodeU "LUI" 0x00000037#32 (by simp [opcodeTable, rowsUJ]) rfl⟩
  | jal rd off => exact ⟨_, rfl, decode_encodeJ "JAL" 0x0000006F#32 (by simp [opcodeTable, rowsUJ]) rfl h⟩
  | jalr rd rs1 imm => exact ⟨_, rfl, decode_encodeI "JALR" 0x00000067#32 (by simp [opcodeTable, rowsUJ]) rfl⟩
  | beq rs1 rs2 off => exact ⟨_, rfl, decode_encodeB "BEQ" 0x00000063#32 (by simp [opcodeTable, rowsB]) rfl h⟩
  | bne rs1 rs2 off => exact ⟨_, rfl, decode_encodeB "BNE" 0x00001063#32 (by simp [opcodeTable, rowsB]) rfl h⟩
  | blt rs1 rs2 off => exact ⟨_, rfl, decode_encodeB "BLT" 0x00004063#32 (by simp [opcodeTable, rowsB]) rfl h⟩
  | bge rs1 rs2 off => exact ⟨_, rfl, decode_encodeB "BGE" 0x00005063#32 (by simp [opcodeTable, rowsB]) rfl h⟩
  | bltu rs1 rs2 off => exact ⟨_, rfl, decode_encodeB "BLTU" 0x00006063#32 (by simp [opcodeTable, rowsB]) rfl h⟩
  | bgeu rs1 rs2 off => exact ⟨_, rfl, decode_encodeB "BGEU" 0x00007063#32 (by simp [opcodeTable, rowsB]) rfl h⟩
  | lb rd rs1 imm => exact ⟨_, rfl, decode_encodeI "LB" 0x00000003#32 (by simp [opcodeTable, rowsMem]) rfl⟩
  | lh rd rs1 imm => exact ⟨_, rfl, decode_encodeI "LH" 0x00001003#32 (by simp [opcodeTable, rowsMem]) rfl⟩
  | lw rd rs1 imm => exact ⟨_, rfl, decode_encodeI "LW" 0x00002003#32 (by simp [opcodeTable, rowsMem]) rfl⟩
  | lbu rd rs1 imm => exact ⟨_, rfl, decode_encodeI "LBU" 0x00004003#32 (by simp [opcodeTable, rowsMem]) rfl⟩
  | lhu rd rs1 imm => exact ⟨_, rfl, decode_encodeI "LHU" 0x00005003#32 (by simp [opcodeTable, rowsMem]) rfl⟩
  | sb rs1 rs2 imm => exact ⟨_, rfl, decode_encodeS "SB" 0x00000023#32 (by simp [opcodeTable, rowsMem]) rfl⟩
  | sh rs1 rs2 imm => exact ⟨_, rfl, decode_encodeS "SH" 0x00001023#32 (by simp [opcodeTable, rowsMem]) rfl⟩
  | sw rs1 rs2 imm => exact ⟨_, rfl, decode_encodeS "SW" 0x00002023#32 (by simp [opcodeTable, rowsMem]) rfl⟩
  | addi rd rs1 imm => exact ⟨_, rfl, decode_encodeI "ADDI" 0x00000013#32 (by simp [opcodeTable, rowsImm]) rfl⟩
  | slti rd rs1 imm => exact ⟨_, rfl, decode_encodeI "SLTI" 0x00002013#32 (by simp [opcodeTable, rowsImm]) rfl⟩
  | sltiu rd rs1 imm => exact ⟨_, rfl, decode_encodeI "SLTIU" 0x00003013#32 (by simp [opcodeTable, rowsImm]) rfl⟩
  | xori rd rs1 imm => exact ⟨_, rfl, decode_encodeI "XORI" 0x00004013#32 (by simp [opcodeTable, rowsImm]) rfl⟩
  | ori rd rs1 imm => exact ⟨_, rfl, decode_encodeI "ORI" 0x00006013#32 (by simp [opcodeTable, rowsImm]) rfl⟩
  | andi rd rs1 imm => exact ⟨_, rfl, decode_encodeI "ANDI" 0x00007013#32 (by simp [opcodeTable, rowsImm]) rfl⟩
  | slli rd rs1 shamt =>
    exact ⟨_, rfl, decode_encodeR "SLLI" 0x00001013#32 (by simp [opcodeTable, rowsImm, fieldShamt, fieldRs2]) rfl⟩
  | srli rd rs1 shamt =>
    exact ⟨_, rfl, decode_encodeR "SRLI" 0x00005013#32 (by simp [opcodeTable, rowsImm, fieldShamt, fieldRs2]) rfl⟩
  | srai rd rs1 shamt =>
    exact ⟨_, rfl, decode_encodeR "SRAI" 0x40005013#32 (by simp [opcodeTable, rowsImm, fieldShamt, fieldRs2]) rfl⟩
  | add rd rs1 rs2 => exact ⟨_, rfl, decode_encodeR "ADD" 0x00000033#32 (by simp [opcodeTable, rowsReg]) rfl⟩
  | sub rd rs1 rs2 => exact ⟨_, rfl, decode_encodeR "SUB" 0x40000033#32 (by simp [opcodeTable, rowsReg]) rfl⟩
  | sll rd rs1 rs2 => exact ⟨_, rfl, decode_encodeR "SLL" 0x00001033#32 (by simp [opcodeTable, rowsReg]) rfl⟩
  | slt rd rs1 rs2 => exact ⟨_, rfl, decode_encodeR "SLT" 0x00002033#32 (by simp [opcodeTable, rowsReg]) rfl⟩
  | sltu rd rs1 rs2 => exact ⟨_, rfl, decode_encodeR "SLTU" 0x00003033#32 (by simp [opcodeTable, rowsReg]) rfl⟩
  | xor rd rs1 rs2 => exact ⟨_, rfl, decode_encodeR "XOR" 0x00004033#32 (by simp [opcodeTable, rowsReg]) rfl⟩
  | srl rd rs1 rs2 => exact ⟨_, rfl, decode_encodeR "SRL" 0x00005033#32 (by simp [opcodeTable, rowsReg]) rfl⟩
  | sra rd rs1 rs2 => exact ⟨_, rfl, decode_encodeR "SRA" 0x40005033#32 (by simp [opcodeTable, rowsReg]) rfl⟩
  | or rd rs1 rs2 => exact ⟨_, rfl, decode_encodeR "OR" 0x00006033#32 (by simp [opcodeTable, rowsReg]) rfl⟩
  | and rd rs1 rs2 => exact ⟨_, rfl, decode_encodeR "AND" 0x00007033#32 (by simp [opcodeTable, rowsReg]) rfl⟩
  | mul rd rs1 rs2 => exact ⟨_, rfl, decode_encodeR "MUL" 0x02000033#32 (by simp [opcodeTable, rowsReg]) rfl⟩
  | csrrw rd csr rs1 => exact ⟨_, rfl, decode_encodeCsr "CSRRW" 0x00001073#32 (by simp [opcodeTable, rowsCsr]) rfl⟩
  | csrrs rd csr rs1 => exact ⟨_, rfl, decode_encodeCsr "CSRRS" 0x00002073#32 (by simp [opcodeTable, rowsCsr]) rfl⟩
  | csrrc rd csr rs1 => exact ⟨_, rfl, decode_encodeCsr "CSRRC" 0x00003073#32 (by simp [opcodeTable, rowsCsr]) rfl⟩
  | csrrwi rd csr zimm =>
    exact ⟨_, rfl, decode_encodeCsr "CSRRWI" 0x00005073#32 (by simp [opcodeTable, rowsCsr, fieldZimm, fieldRs1]) rfl⟩
  | csrrsi rd csr zimm =>
    exact ⟨_, rfl, decode_encodeCsr "CSRRSI" 0x00006073#32 (by simp [opcodeTable, rowsCsr, fieldZimm, fieldRs1]) rfl⟩
  | csrrci rd csr zimm =>
    exact ⟨_, rfl, decode_encodeCsr "CSRRCI" 0x00007073#32 (by simp [opcodeTable, rowsCsr, fieldZimm, fieldRs1]) rfl⟩
  | swsp | lwsp => cases h

/-! ## Illegal words -/

/-- Settles O3: the first test of `decode` is for exactly these patterns. -/
theorem invalidShiftsAreIllegal : Obligations.InvalidShiftsAreIllegal := by
  intro w
  refine ⟨?_, fun s hfetch hill => ?_⟩
  · rw [decode_illegal]
    simp [invalidShiftPatterns, maskOpF3F7]
  · rw [Machine.step_of_fetch hfetch, hill]

end Sys2Proof
end

section
/-! PROOFS. The words without a meaning (spec/30_encoding.md R92): a row of the opcode map or an invalid shift looks at
the function fields only, so a word whose function fields are in no column of R87 and R91 is of no row. -/

namespace Sys2Proof

/-! ## The function-field columns of R87 and R91 -/

/-- The opcodes of the rows that fix the opcode alone: AUIPC, LUI, JAL. -/
@[simp] def opcodeKeys : List (BitVec 7) := [0b0010111#7, 0b0110111#7, 0b1101111#7]

/-- Opcode and funct3 of the rows that fix these two: JALR, the branches, the loads, the stores, the immediate forms but
the shifts, the CSR instructions. -/
@[simp] def funct3Keys : List (BitVec 7 × BitVec 3) :=
  [ (0b1100111#7, 0b000#3),
    (0b1100011#7, 0b000#3), (0b1100011#7, 0b001#3), (0b1100011#7, 0b100#3), (0b1100011#7, 0b101#3),
    (0b1100011#7, 0b110#3), (0b1100011#7, 0b111#3),
    (0b0000011#7, 0b000#3), (0b0000011#7, 0b001#3), (0b0000011#7, 0b010#3), (0b0000011#7, 0b100#3),
    (0b0000011#7, 0b101#3),
    (0b0100011#7, 0b000#3), (0b0100011#7, 0b001#3), (0b0100011#7, 0b010#3),
    (0b0010011#7, 0b000#3), (0b0010011#7, 0b010#3), (0b0010011#7, 0b011#3), (0b0010011#7, 0b100#3),
    (0b0010011#7, 0b110#3), (0b0010011#7, 0b111#3),
    (0b1110011#7, 0b001#3), (0b1110011#7, 0b010#3), (0b1110011#7, 0b011#3), (0b1110011#7, 0b101#3),
    (0b1110011#7, 0b110#3), (0b1110011#7, 0b111#3) ]

/-- Opcode, funct3 and funct7 of the rows that fix all three, and of the invalid shifts: the shifts by a constant with
`IR[25]` 0 or 1, the register forms, MUL. -/
@[simp] def funct7Keys : List (BitVec 7 × BitVec 3 × BitVec 7) :=
  [ (0b0010011#7, 0b001#3, 0b0000000#7), (0b0010011#7, 0b001#3, 0b0000001#7),
    (0b0010011#7, 0b101#3, 0b0000000#7), (0b0010011#7, 0b101#3, 0b0000001#7),
    (0b0010011#7, 0b101#3, 0b0100000#7), (0b0010011#7, 0b101#3, 0b0100001#7),
    (0b0110011#7, 0b000#3, 0b0000000#7), (0b0110011#7, 0b001#3, 0b0000000#7), (0b0110011#7, 0b010#3, 0b0000000#7),
    (0b0110011#7, 0b011#3, 0b0000000#7), (0b0110011#7, 0b100#3, 0b0000000#7), (0b0110011#7, 0b101#3, 0b0000000#7),
    (0b0110011#7, 0b110#3, 0b0000000#7), (0b0110011#7, 0b111#3, 0b0000000#7),
    (0b0110011#7, 0b000#3, 0b0100000#7), (0b0110011#7, 0b101#3, 0b0100000#7),
    (0b0110011#7, 0b000#3, 0b0000001#7) ]

/-- Each row has one of the three masks, and its pattern's function fields are in the column of that mask. -/
theorem opcodeTable_keys : ∀ r ∈ opcodeTable,
    (r.mask = maskOp ∧ fieldOpcode r.pattern ∈ opcodeKeys) ∨
    (r.mask = maskOpF3 ∧ (fieldOpcode r.pattern, fieldFunct3 r.pattern) ∈ funct3Keys) ∨
    (r.mask = maskOpF3F7 ∧ (fieldOpcode r.pattern, fieldFunct3 r.pattern, fieldFunct7 r.pattern) ∈ funct7Keys) := by
  simp [opcodeTable, rowsUJ, rowsB, rowsMem, rowsImm, rowsReg, rowsCsr, fieldOpcode, fieldFunct3, fieldFunct7, maskOp,
    maskOpF3, maskOpF3F7]

theorem invalidShiftPatterns_keys :
    ∀ p ∈ invalidShiftPatterns, (fieldOpcode p, fieldFunct3 p, fieldFunct7 p) ∈ funct7Keys := by
  simp [invalidShiftPatterns, fieldOpcode, fieldFunct3, fieldFunct7]

variable {w : Word}

theorem fieldOpcode_and_maskOp (w : Word) : fieldOpcode (w &&& maskOp) = fieldOpcode w := by
  obtain ⟨-, -, h⟩ := encodeU_eq_iff.mp (encodeU_eq_and_maskOp_iff.mpr (rfl : fieldOpcode w = fieldOpcode w))
  exact h.symm

theorem fields_and_maskOpF3 (w : Word) :
    fieldOpcode (w &&& maskOpF3) = fieldOpcode w ∧ fieldFunct3 (w &&& maskOpF3) = fieldFunct3 w := by
  obtain ⟨-, -, hf3, -, hop⟩ := encodeI_eq_iff.mp (encodeI_eq_and_maskOpF3_iff.mpr ⟨(rfl : _ = fieldFunct3 w), rfl⟩)
  exact ⟨hop.symm, hf3.symm⟩

theorem fields_and_maskOpF3F7 (w : Word) : fieldOpcode (w &&& maskOpF3F7) = fieldOpcode w ∧
    fieldFunct3 (w &&& maskOpF3F7) = fieldFunct3 w ∧ fieldFunct7 (w &&& maskOpF3F7) = fieldFunct7 w := by
  obtain ⟨hf7, -, -, hf3, -, hop⟩ :=
    encodeR_eq_iff.mp (encodeR_eq_and_maskOpF3F7_iff.mpr ⟨(rfl : _ = fieldFunct7 w), rfl, rfl⟩)
  exact ⟨hop.symm, hf3.symm, hf7.symm⟩

/-- The function fields are in none of the three columns. -/
@[simp] def Unlisted (opcode : BitVec 7) (funct3 : BitVec 3) (funct7 : BitVec 7) : Prop :=
  opcode ∉ opcodeKeys ∧ (opcode, funct3) ∉ funct3Keys ∧ (opcode, funct3, funct7) ∉ funct7Keys

theorem decode_of_unlisted (h : Unlisted (fieldOpcode w) (fieldFunct3 w) (fieldFunct7 w)) :
    decode w = .unknownEncoding := by
  obtain ⟨hop, hf3, hf7⟩ := h
  apply decode_unknown
  · rintro p hp rfl
    have hkey := invalidShiftPatterns_keys _ hp
    simp only [fields_and_maskOpF3F7] at hkey
    exact hf7 hkey
  · intro r hr h
    rcases opcodeTable_keys r hr with ⟨hm, hkey⟩ | ⟨hm, hkey⟩ | ⟨hm, hkey⟩ <;> rw [← h, hm] at hkey
    · rw [fieldOpcode_and_maskOp] at hkey
      exact hop hkey
    · simp only [fields_and_maskOpF3] at hkey
      exact hf3 hkey
    · simp only [fields_and_maskOpF3F7] at hkey
      exact hf7 hkey

/-! ## The classes of R92 -/

/-- Every opcode of the columns ends in 11. -/
theorem unlisted_of_lowBits {opcode : BitVec 7} (funct3 : BitVec 3) (funct7 : BitVec 7)
    (h : opcode.extractLsb' 0 2 ≠ 0b11#2) : Unlisted opcode funct3 funct7 := by
  have hop : ∀ o ∈ opcodeKeys, o.extractLsb' 0 2 = 0b11#2 := by simp
  have hf3 : ∀ k ∈ funct3Keys, k.1.extractLsb' 0 2 = 0b11#2 := by simp
  have hf7 : ∀ k ∈ funct7Keys, k.1.extractLsb' 0 2 = 0b11#2 := by simp
  exact ⟨fun hk => h (hop _ hk), fun hk => h (hf3 _ hk), fun hk => h (hf7 _ hk)⟩

/-- The columns of the stores end at funct3 010. -/
theorem unlisted_store {funct3 : BitVec 3} (funct7 : BitVec 7) (h : 0b011#3 ≤ funct3) :
    Unlisted 0b0100011#7 funct3 funct7 := by
  have hlisted : ∀ f ∈ [0b000#3, 0b001#3, 0b010#3], ¬ 0b011#3 ≤ f := by decide
  have hf3 : funct3 ∉ [0b000#3, 0b001#3, 0b010#3] := fun hf => hlisted _ hf h
  simpa using hf3

/-- The columns of SLLI, with `IR[25]` 0 or 1, hold 000000 in `IR[31:26]`. -/
theorem unlisted_slli {funct7 : BitVec 7} (h : funct7.extractLsb' 1 6 ≠ 0b000000#6) :
    Unlisted 0b0010011#7 0b001#3 funct7 := by
  have hlisted : ∀ f ∈ [0b0000000#7, 0b0000001#7], f.extractLsb' 1 6 = 0b000000#6 := by decide
  have hf7 : funct7 ∉ [0b0000000#7, 0b0000001#7] := fun hf => h (hlisted _ hf)
  simpa using hf7

/-- The columns of SRLI and SRAI, with `IR[25]` 0 or 1, hold 000000 or 010000 in `IR[31:26]`. -/
theorem unlisted_srli_srai {funct7 : BitVec 7} (h : funct7.extractLsb' 1 6 ≠ 0b000000#6)
    (h' : funct7.extractLsb' 1 6 ≠ 0b010000#6) : Unlisted 0b0010011#7 0b101#3 funct7 := by
  have hlisted : ∀ f ∈ [0b0000000#7, 0b0000001#7, 0b0100000#7, 0b0100001#7],
      f.extractLsb' 1 6 = 0b000000#6 ∨ f.extractLsb' 1 6 = 0b010000#6 := by decide
  have hf7 : funct7 ∉ [0b0000000#7, 0b0000001#7, 0b0100000#7, 0b0100001#7] :=
    fun hf => (hlisted _ hf).elim h h'
  simpa using hf7

theorem slice_fieldOpcode (w : Word) : w.extractLsb' 0 2 = (fieldOpcode w).extractLsb' 0 2 :=
  (BitVec.extractLsb'_extractLsb'_of_le (by decide)).symm

theorem slice_fieldFunct7 (w : Word) : w.extractLsb' 26 6 = (fieldFunct7 w).extractLsb' 1 6 := by
  apply BitVec.eq_of_getLsbD_eq
  intro i hi
  have hlt : 1 + i < 7 := by omega
  simp only [fieldFunct7, BitVec.getLsbD_extractLsb', hi, hlt, decide_true, Bool.true_and, ← Nat.add_assoc,
    Nat.reduceAdd]

/-- A word has no meaning exactly when it is no invalid shift and of no row. -/
theorem decode_unknown_iff : decode w = .unknownEncoding ↔
    decode w ≠ .illegalInstruction ∧ ∀ r ∈ opcodeTable, w &&& r.mask ≠ r.pattern := by
  constructor
  · intro h
    exact ⟨by simp [h], fun r hr hw => by cases h.symm.trans (decode_of_row hr hw)⟩
  · rintro ⟨hill, hrows⟩
    exact decode_unknown (fun p hp hw => hill (decode_illegal.mpr ⟨p, hp, hw⟩)) hrows

/-- Settles O4: a word of each class has no meaning because its function fields are in no column. -/
theorem unlistedWordsAreUnknown : Obligations.UnlistedWordsAreUnknown := by
  refine ⟨fun w => decode_unknown_iff, fun s w hfetch h => by rw [Machine.step_of_fetch hfetch, h], by decide,
    by decide, fun w opcode funct3 funct7 hopcode hfunct3 hfunct7 => ?_⟩
  have hunknown : Unlisted opcode funct3 funct7 → decode w = .unknownEncoding := by
    subst hopcode hfunct3 hfunct7
    exact decode_of_unlisted
  have hlow : w.extractLsb' 0 2 = opcode.extractLsb' 0 2 := hopcode ▸ slice_fieldOpcode w
  have hhigh : w.extractLsb' 26 6 = funct7.extractLsb' 1 6 := hfunct7 ▸ slice_fieldFunct7 w
  rw [hlow, hhigh]
  clear hopcode hfunct3 hfunct7 hlow hhigh
  refine ⟨?lowBits, ?fence, ?system, ?mulDiv, ?opFunct7, ?subSra, ?branch, ?load, ?store, ?jalr, ?slli, ?srliSrai,
    ?opcode⟩
  case lowBits => exact fun h => hunknown (unlisted_of_lowBits _ _ h)
  case fence => rintro rfl; exact hunknown (by simp)
  case system => rintro rfl (rfl | rfl) <;> exact hunknown (by simp)
  case mulDiv => rintro rfl rfl hf3; exact hunknown (by simp [hf3])
  case opFunct7 => rintro rfl h0 h32 h1; exact hunknown (by simp [h0, h32, h1])
  case subSra => rintro rfl rfl h0 h5; exact hunknown (by simp [h0, h5])
  case branch => rintro rfl (rfl | rfl) <;> exact hunknown (by simp)
  case load => rintro rfl (rfl | rfl | rfl) <;> exact hunknown (by simp)
  case store => rintro rfl hf3; exact hunknown (unlisted_store _ hf3)
  case jalr => rintro rfl hf3; exact hunknown (by simp [hf3])
  case slli => rintro rfl rfl hf7; exact hunknown (unlisted_slli hf7)
  case srliSrai => rintro rfl rfl h h'; exact hunknown (unlisted_srli_srai h h')
  case opcode => intros; exact hunknown (by simp [*])

end Sys2Proof
end

section
/-! PROOFS. The opcode map read both ways (spec/30_encoding.md R87, R90): a word is under a row's pattern exactly when
it decodes to what the row builds from it. The `Row` clauses of the statements are cases of this. -/

namespace Sys2Proof

/-- A row builds instructions of one constructor, whatever the word. -/
theorem ctorIdx_build : ∀ r ∈ opcodeTable, ∀ w, (r.build w).ctorIdx = (r.build 0).ctorIdx := by
  simp only [opcodeTable, rowsUJ, rowsB, rowsMem, rowsImm, rowsReg, rowsCsr, List.cons_append, List.nil_append,
    List.forall_mem_cons, List.not_mem_nil, IsEmpty.forall_iff, implies_true, and_true]
  and_intros <;> exact fun _ => rfl

/-- No two rows build instructions of the same constructor. -/
theorem nodup_ctorIdx_build : (opcodeTable.map fun r => (r.build 0).ctorIdx).Nodup := by decide

theorem row_eq_of_build_eq {r r' : OpcodeRow} (hr : r ∈ opcodeTable) (hr' : r' ∈ opcodeTable) {w w' : Word}
    (h : r.build w = r'.build w') : r = r' := by
  apply List.inj_on_of_nodup_map nodup_ctorIdx_build hr hr'
  rw [← ctorIdx_build r hr w, h, ctorIdx_build r' hr' w']

/-- The words under a row's pattern are exactly those that decode to what the row builds. -/
theorem under_row_iff_decode {r : OpcodeRow} (hr : r ∈ opcodeTable) (w : Word) :
    w &&& r.mask = r.pattern ↔ decode w = .instr (r.build w) := by
  constructor
  · exact decode_of_row hr
  · intro h
    obtain ⟨r', hr', hw, hbuild⟩ := row_of_decode h
    rwa [row_eq_of_build_eq hr hr' hbuild]

end Sys2Proof
end

section
/-! PROOFS. AUIPC and LUI (spec/40_upper_immediate.md R100 to R102). -/

namespace Sys2Proof.Machine

/-! ## Words -/

theorem rowU_auipc : RowU 0x00000017#32 .auipc :=
  under_row_iff_decode (r := ⟨"AUIPC", 0x00000017#32, maskOp, fun w => .auipc (fieldRd w) (fieldImmU w)⟩)
    (by simp [opcodeTable, rowsUJ])

theorem rowU_lui : RowU 0x00000037#32 .lui :=
  under_row_iff_decode (r := ⟨"LUI", 0x00000037#32, maskOp, fun w => .lui (fieldRd w) (fieldImmU w)⟩)
    (by simp [opcodeTable, rowsUJ])

/-! ## The immediates -/

/-- `imm_U` is the field times 4096 (R83). -/
theorem toNat_upper20 (imm : BitVec 20) : (upper20 imm).toNat = imm.toNat * 4096 := by
  have happend : (upper20 imm).toNat = imm.toNat <<< 12 ||| (0#12).toNat := BitVec.toNat_append imm 0#12
  simpa [Nat.shiftLeft_eq] using happend

/-- A word whose low 12 bits are zero is the `imm_U` of its upper 20. -/
theorem upper20_upperSlice {v : Word} (h : v.extractLsb' 0 12 = 0#12) : upper20 (v.extractLsb' 12 20) = v := by
  have hparts : v.extractLsb' 12 20 ++ v.extractLsb' 0 12 = v.extractLsb' 0 (20 + 12) :=
    BitVec.extractLsb'_append_extractLsb'_eq_extractLsb' rfl
  rw [upper20, ← h]
  exact hparts.trans BitVec.extractLsb'_eq_self

/-- Sign extension keeps the 12 bits it extends. -/
theorem lowSlice_signed12 (imm : BitVec 12) : (signed12 imm).extractLsb' 0 12 = imm := by
  ext i hi
  have hi' : i < 32 := by omega
  simp [signed12, BitVec.getElem_signExtend, hi, hi']

/-- Taking away its own low 12 bits, sign-extended, leaves zeros in their place. -/
theorem lowSlice_sub_signed12 (K : Word) : (K - signed12 (K.extractLsb' 0 12)).extractLsb' 0 12 = 0#12 := by
  have hsum := congrArg (·.extractLsb' 0 12) (BitVec.sub_add_cancel K (signed12 (K.extractLsb' 0 12)))
  simp only [BitVec.extractLsb'_add (show 12 ≤ 32 by decide), lowSlice_signed12] at hsum
  exact add_eq_right.mp hsum

/-- R102: what LUI takes from `K` and what ADDI takes from it add up to `K`. -/
theorem upper20_add_signed12 (K : Word) :
    upper20 ((K - signed12 (K.extractLsb' 0 12)).extractLsb' 12 20) + signed12 (K.extractLsb' 0 12) = K := by
  rw [upper20_upperSlice (lowSlice_sub_signed12 K), BitVec.sub_add_cancel]

/-! ## Results -/

section
variable (s : State) (rd : RegNum)

theorem auipc_completes (imm : BitVec 20) : Completes (.auipc rd imm) s rd (· = s.pc + upper20 imm) :=
  completes_of_finishRd rfl rfl

theorem lui_completes (imm : BitVec 20) : Completes (.lui rd imm) s rd (· = upper20 imm) :=
  completes_of_finishRd rfl rfl

theorem addi_completes (rs1 : RegNum) (imm : BitVec 12) :
    Completes (.addi rd rs1 imm) s rd (· = readReg s rs1 + signed12 imm) :=
  completes_of_finishRd rfl rfl

end

theorem Completes.imp {i : Instr} {s : State} {rd : RegNum} {P Q : Word → Prop} (h : Completes i s rd P)
    (hPQ : ∀ v, P v → Q v) : Completes i s rd Q := by
  obtain ⟨t, hexec, hpc, ⟨hrd, hzero⟩, hframe⟩ := h
  exact ⟨t, hexec, hpc, ⟨fun hr => hPQ _ (hrd hr), hzero⟩, hframe⟩

/-- Settles O9: the two rows of the opcode map, and the sum and the immediate as numbers. -/
theorem upperImmediateResults : Obligations.UpperImmediateResults := by
  refine ⟨rowU_auipc, rowU_lui, fun s rd imm =>
    ⟨(auipc_completes s rd imm).imp ?auipc, (lui_completes s rd imm).imp ?lui⟩⟩
  case auipc => rintro _ rfl; rw [BitVec.toNat_add, toNat_upper20]
  case lui => rintro _ rfl; exact toNat_upper20 imm

/-! ## Use together -/

theorem OnlyRd.trans {s t u : State} {rd : RegNum} (hst : OnlyRd s t rd) (htu : OnlyRd t u rd) : OnlyRd s u rd := by
  obtain ⟨hregs, hcsrs, ⟨hmem, hstored⟩, hplatform⟩ := hst
  obtain ⟨hregs', hcsrs', ⟨hmem', hstored'⟩, hplatform'⟩ := htu
  exact ⟨fun r hr => (hregs' r hr).trans (hregs r hr), fun a => (hcsrs' a).trans (hcsrs a),
    ⟨fun a => (hmem' a).trans (hmem a), fun a => (hstored' a).trans (hstored a)⟩, hplatform'.trans hplatform⟩

/-- Settles O42: ADDI adds to what LUI has left in `rd`, and both touch only `rd` and the pc. -/
theorem luiThenAddiBuildsAnyConstant : Obligations.LuiThenAddiBuildsAnyConstant := by
  intro s rd K hrd
  obtain ⟨t, hlui, -, ⟨hupper, -⟩, hst⟩ :=
    lui_completes s rd ((K - signed12 (K.extractLsb' 0 12)).extractLsb' 12 20)
  obtain ⟨u, haddi, -, ⟨hsum, -⟩, htu⟩ := addi_completes t rd rd (K.extractLsb' 0 12)
  refine ⟨t, u, hlui, haddi, ?_, hst.trans htu⟩
  rw [hsum hrd, hupper hrd, upper20_add_signed12]

end Sys2Proof.Machine
end

section
/-! PROOFS. JAL and JALR (spec/41_jumps.md R110, R111), and the sum of an address and a signed offset. -/

namespace Sys2Proof.Machine

/-! ## Words -/

theorem rowJ_jal : RowJ 0x0000006F#32 .jal :=
  under_row_iff_decode (r := ⟨"JAL", 0x0000006F#32, maskOp, fun w => .jal (fieldRd w) (fieldOffJ w)⟩)
    (by simp [opcodeTable, rowsUJ])

theorem rowI_jalr : RowI 0x00000067#32 .jalr :=
  under_row_iff_decode
    (r := ⟨"JALR", 0x00000067#32, maskOpF3, fun w => .jalr (fieldRd w) (fieldRs1 w) (fieldImmI w)⟩)
    (by simp [opcodeTable, rowsUJ])

/-! ## Targets -/

/-- Adding an offset of any width, sign-extended to a word, is adding its signed value modulo 2^32. -/
theorem add_signExtend_eq_ofInt {n : Nat} (a : Word) (off : BitVec n) :
    a + off.signExtend 32 = BitVec.ofInt 32 (a.toNat + off.toInt) := by
  rw [BitVec.ofInt_add, BitVec.ofInt_natCast, BitVec.ofNat_toNat, BitVec.setWidth_eq, BitVec.signExtend]

theorem baseOffset_eq_ofInt (s : State) (rs1 : RegNum) (imm : BitVec 12) :
    baseOffset s rs1 imm = BitVec.ofInt 32 ((readReg s rs1).toNat + imm.toInt) :=
  add_signExtend_eq_ofInt _ imm

/-! ## Jumps -/

theorem jal_jumpsTo (s : State) (rd : RegNum) (off : BitVec 21) : JumpsTo (.jal rd off) s rd (s.pc + signed21 off) :=
  jumpsTo_of_linkAndJump rfl

theorem jalr_jumpsTo (s : State) (rd rs1 : RegNum) (imm : BitVec 12) :
    JumpsTo (.jalr rd rs1 imm) s rd (baseOffset s rs1 imm) :=
  jumpsTo_of_linkAndJump rfl

/-- Settles O10: the row of the opcode map, and the target as a number. -/
theorem jalLinksAndJumps : Obligations.JalLinksAndJumps := by
  refine ⟨rowJ_jal, fun s rd off => ?_⟩
  have htarget : s.pc + signed21 off = BitVec.ofInt 32 (s.pc.toNat + off.toInt) := add_signExtend_eq_ofInt s.pc off
  exact htarget ▸ jal_jumpsTo s rd off

/-- Settles O11: the target is computed in the state before the link is written, so it does not matter whether `rd` is
`rs1`. -/
theorem jalrLinksAndJumps : Obligations.JalrLinksAndJumps := by
  refine ⟨rowI_jalr, fun s rd rs1 imm => ?_⟩
  rw [← baseOffset_eq_ofInt]
  exact jalr_jumpsTo s rd rs1 imm

end Sys2Proof.Machine
end

section
/-! PROOFS. The six conditional branches (spec/42_branches.md R120 to R126), and the two comparisons as comparisons of
numbers. -/

namespace Sys2Proof.Machine

/-! ## Words -/

/-- A B row of the opcode map is read both ways. -/
theorem rowB_of_mem {mk : RegNum → RegNum → BitVec 13 → Instr} {p : Word} (name : String)
    (h : ⟨name, p, maskOpF3, fun w => mk (fieldRs1 w) (fieldRs2 w) (fieldOffB w)⟩ ∈ rowsB) : RowB p mk := by
  have hsub : rowsB ⊆ opcodeTable := fun r hr => by
    simp only [opcodeTable, List.mem_append, hr, or_true, true_or]
  exact under_row_iff_decode (hsub h)

theorem rowB_beq : RowB 0x00000063#32 .beq := rowB_of_mem "BEQ" (by simp [rowsB])

theorem rowB_bne : RowB 0x00001063#32 .bne := rowB_of_mem "BNE" (by simp [rowsB])

theorem rowB_blt : RowB 0x00004063#32 .blt := rowB_of_mem "BLT" (by simp [rowsB])

theorem rowB_bge : RowB 0x00005063#32 .bge := rowB_of_mem "BGE" (by simp [rowsB])

theorem rowB_bltu : RowB 0x00006063#32 .bltu := rowB_of_mem "BLTU" (by simp [rowsB])

theorem rowB_bgeu : RowB 0x00007063#32 .bgeu := rowB_of_mem "BGEU" (by simp [rowsB])

/-! ## Conditions -/

theorem lessSigned_iff {a b : Word} : lessSigned a b = true ↔ a.toInt < b.toInt := decide_eq_true_iff

theorem lessUnsigned_iff {a b : Word} : lessUnsigned a b = true ↔ a.toNat < b.toNat := decide_eq_true_iff

/-- The negated signed comparison is "greater or equal", so it holds of equal numbers. -/
theorem not_lessSigned_iff {a b : Word} : (!lessSigned a b) = true ↔ b.toInt ≤ a.toInt := by
  rw [Bool.not_eq_true', Bool.eq_false_iff, Ne, lessSigned_iff, Int.not_lt]

/-- The negated unsigned comparison is "greater or equal", so it holds of equal numbers. -/
theorem not_lessUnsigned_iff {a b : Word} : (!lessUnsigned a b) = true ↔ b.toNat ≤ a.toNat := by
  rw [Bool.not_eq_true', Bool.eq_false_iff, Ne, lessUnsigned_iff, Nat.not_lt]

/-! ## Branches -/

/-- A branch whose target is given as a number. -/
theorem branchesOn_ofInt {i : Instr} {s : State} {c : Bool} {off : BitVec 13} {P : Prop} (hc : c = true ↔ P)
    (h : exec i s = branchIf c s off) : BranchesOn i s P (BitVec.ofInt 32 (s.pc.toNat + off.toInt)) := by
  have htarget : s.pc + signed13 off = BitVec.ofInt 32 (s.pc.toNat + off.toInt) := add_signExtend_eq_ofInt s.pc off
  exact htarget ▸ branchesOn_of_branchIf hc h

/-- Settles O12: the two rows of the opcode map, and the Boolean (in)equality as a proposition. -/
theorem equalityBranches : Obligations.EqualityBranches :=
  ⟨rowB_beq, rowB_bne, fun _ _ _ _ => ⟨branchesOn_ofInt beq_iff_eq rfl, branchesOn_ofInt bne_iff_ne rfl⟩⟩

/-- Settles O13: the two rows of the opcode map, and the signed comparison and its negation as `<` and `≤`. -/
theorem signedBranches : Obligations.SignedBranches :=
  ⟨rowB_blt, rowB_bge, fun _ _ _ _ => ⟨branchesOn_ofInt lessSigned_iff rfl, branchesOn_ofInt not_lessSigned_iff rfl⟩⟩

/-- Settles O14: the two rows of the opcode map, and the unsigned comparison and its negation as `<` and `≤`. -/
theorem unsignedBranches : Obligations.UnsignedBranches :=
  ⟨rowB_bltu, rowB_bgeu, fun _ _ _ _ =>
    ⟨branchesOn_ofInt lessUnsigned_iff rfl, branchesOn_ofInt not_lessUnsigned_iff rfl⟩⟩

end Sys2Proof.Machine
end

section
/-! PROOFS. LB, LBU, LH, LHU and LW (spec/43_loads.md R130 to R135): the rows of the opcode map, and what the extensions
make of the bytes read. -/

namespace Sys2Proof.Machine

/-! ## Words -/

/-- An I row of the opcode map is read both ways. -/
theorem rowI_of_mem {mk : RegNum → RegNum → BitVec 12 → Instr} {p : Word} (name : String)
    (h : ⟨name, p, maskOpF3, fun w => mk (fieldRd w) (fieldRs1 w) (fieldImmI w)⟩ ∈ opcodeTable) : RowI p mk :=
  under_row_iff_decode h

theorem rowI_lb : RowI 0x00000003#32 .lb := rowI_of_mem "LB" (by simp [opcodeTable, rowsMem])

theorem rowI_lh : RowI 0x00001003#32 .lh := rowI_of_mem "LH" (by simp [opcodeTable, rowsMem])

theorem rowI_lw : RowI 0x00002003#32 .lw := rowI_of_mem "LW" (by simp [opcodeTable, rowsMem])

theorem rowI_lbu : RowI 0x00004003#32 .lbu := rowI_of_mem "LBU" (by simp [opcodeTable, rowsMem])

theorem rowI_lhu : RowI 0x00005003#32 .lhu := rowI_of_mem "LHU" (by simp [opcodeTable, rowsMem])

/-! ## Extensions (spec/20_memory.md R50) -/

/-- The slice that an extension takes of the word read is the whole value in that word's low bits. -/
theorem lowSlice_setWidth {n : Nat} (v : BitVec n) (hn : n ≤ 32) : (v.setWidth 32).extractLsb' 0 n = v := by
  rw [BitVec.extractLsb'_setWidth_of_le (by omega), BitVec.extractLsb'_eq_self]

theorem signExtendByte_wordOfBytes (b : Byte) : signExtendByte (wordOfBytes [b]) = b.signExtend 32 := by
  rw [signExtendByte, wordOfBytes_one, lowSlice_setWidth b (by decide)]

theorem zeroExtendByte_wordOfBytes (b : Byte) : zeroExtendByte (wordOfBytes [b]) = b.setWidth 32 := by
  rw [zeroExtendByte, wordOfBytes_one, lowSlice_setWidth b (by decide)]

theorem signExtendHalf_wordOfBytes (b0 b1 : Byte) :
    signExtendHalf (wordOfBytes [b0, b1]) = (b1 ++ b0).signExtend 32 := by
  rw [signExtendHalf, wordOfBytes_two, lowSlice_setWidth (b1 ++ b0) (by decide)]

theorem zeroExtendHalf_wordOfBytes (b0 b1 : Byte) :
    zeroExtendHalf (wordOfBytes [b0, b1]) = (b1 ++ b0).setWidth 32 := by
  rw [zeroExtendHalf, wordOfBytes_two, lowSlice_setWidth (b1 ++ b0) (by decide)]

/-- The sign of a halfword is that of its high byte. -/
theorem toInt_half (b0 b1 : Byte) : (b1 ++ b0).toInt = b1.toInt * 256 + b0.toNat := by
  rw [BitVec.toInt_append, if_neg (by decide), mul_comm]
  rfl

theorem toNat_half (b0 b1 : Byte) : (b1 ++ b0).toNat = b1.toNat * 256 + b0.toNat := by
  rw [BitVec.toNat_append, ← Nat.shiftLeft_add_eq_or_of_lt b0.isLt, Nat.shiftLeft_eq]

/-! ## Completion -/

section
variable {s : State} (rd : RegNum) {rs1 : RegNum} {imm : BitVec 12}

theorem lb_completes {b : Byte} (hm : AllMapped s (baseOffset s rs1 imm) 1)
    (hb : BytesAre s (baseOffset s rs1 imm) [b]) : Completes (.lb rd rs1 imm) s rd (· = b.signExtend 32) :=
  completesBy_of_loadFrom (bs := [b]) rfl (Nat.mod_one _) hm hb (signExtendByte_wordOfBytes b)

theorem lbu_completes {b : Byte} (hm : AllMapped s (baseOffset s rs1 imm) 1)
    (hb : BytesAre s (baseOffset s rs1 imm) [b]) : Completes (.lbu rd rs1 imm) s rd (· = b.setWidth 32) :=
  completesBy_of_loadFrom (bs := [b]) rfl (Nat.mod_one _) hm hb (zeroExtendByte_wordOfBytes b)

theorem lh_completes {b0 b1 : Byte} (ha : (baseOffset s rs1 imm).toNat % 2 = 0)
    (hm : AllMapped s (baseOffset s rs1 imm) 2) (hb : BytesAre s (baseOffset s rs1 imm) [b0, b1]) :
    Completes (.lh rd rs1 imm) s rd (· = (b1 ++ b0).signExtend 32) :=
  completesBy_of_loadFrom (bs := [b0, b1]) rfl ha hm hb (signExtendHalf_wordOfBytes b0 b1)

theorem lhu_completes {b0 b1 : Byte} (ha : (baseOffset s rs1 imm).toNat % 2 = 0)
    (hm : AllMapped s (baseOffset s rs1 imm) 2) (hb : BytesAre s (baseOffset s rs1 imm) [b0, b1]) :
    Completes (.lhu rd rs1 imm) s rd (· = (b1 ++ b0).setWidth 32) :=
  completesBy_of_loadFrom (bs := [b0, b1]) rfl ha hm hb (zeroExtendHalf_wordOfBytes b0 b1)

theorem lw_completes {b0 b1 b2 b3 : Byte} (ha : (baseOffset s rs1 imm).toNat % 4 = 0)
    (hm : AllMapped s (baseOffset s rs1 imm) 4) (hb : BytesAre s (baseOffset s rs1 imm) [b0, b1, b2, b3]) :
    Completes (.lw rd rs1 imm) s rd (· = b3 ++ b2 ++ b1 ++ b0) :=
  completesBy_of_loadFrom (bs := [b0, b1, b2, b3]) rfl ha hm hb (wordOfBytes_four b0 b1 b2 b3)

end

/-- Settles O15: the two rows of the opcode map, and a byte extended to a word as a number. -/
theorem byteLoads : Obligations.ByteLoads := by
  refine ⟨rowI_lb, rowI_lbu, fun s rd rs1 imm => ⟨baseOffset_eq_ofInt s rs1 imm,
    fun b hm hb => ⟨(lb_completes rd hm hb).imp ?lb, (lbu_completes rd hm hb).imp ?lbu⟩,
    loadStops_of_loadFrom rfl, loadStops_of_loadFrom rfl⟩⟩
  case lb => rintro _ rfl; exact BitVec.toInt_signExtend_of_le (by decide)
  case lbu => rintro _ rfl; exact BitVec.toNat_setWidth_of_le (by decide)

/-- Settles O16: the two rows of the opcode map, and a halfword extended to a word as a number in its two bytes. -/
theorem halfwordLoads : Obligations.HalfwordLoads := by
  refine ⟨rowI_lh, rowI_lhu, fun s rd rs1 imm => ⟨baseOffset_eq_ofInt s rs1 imm,
    fun b0 b1 ha hm hb => ⟨(lh_completes rd ha hm hb).imp ?lh, (lhu_completes rd ha hm hb).imp ?lhu⟩,
    loadMisaligned_of_loadFrom rfl, loadMisaligned_of_loadFrom rfl,
    loadStops_of_loadFrom rfl, loadStops_of_loadFrom rfl⟩⟩
  case lh => rintro _ rfl; rw [BitVec.toInt_signExtend_of_le (by decide), toInt_half]
  case lhu => rintro _ rfl; rw [BitVec.toNat_setWidth_of_le (by decide), toNat_half]

/-- Settles O17: the row of the opcode map, and the four bytes as the word read. -/
theorem wordLoad : Obligations.WordLoad :=
  ⟨rowI_lw, fun s rd rs1 imm => ⟨baseOffset_eq_ofInt s rs1 imm, fun _ _ _ _ ha hm hb => lw_completes rd ha hm hb,
    loadMisaligned_of_loadFrom rfl, loadStops_of_loadFrom rfl⟩⟩

end Sys2Proof.Machine
end

section
/-! PROOFS. SB, SH and SW (spec/44_stores.md R140 to R143): the rows of the opcode map, and the bytes `MemWrite` puts in
memory as slices of `x[rs2]`. -/

namespace Sys2Proof.Machine

/-! ## Words -/

/-- An S row of the opcode map is read both ways. -/
theorem rowS_of_mem {mk : RegNum → RegNum → BitVec 12 → Instr} {p : Word} (name : String)
    (h : ⟨name, p, maskOpF3, fun w => mk (fieldRs1 w) (fieldRs2 w) (fieldImmS w)⟩ ∈ opcodeTable) : RowS p mk :=
  under_row_iff_decode h

theorem rowS_sb : RowS 0x00000023#32 .sb := rowS_of_mem "SB" (by simp [opcodeTable, rowsMem])

theorem rowS_sh : RowS 0x00001023#32 .sh := rowS_of_mem "SH" (by simp [opcodeTable, rowsMem])

theorem rowS_sw : RowS 0x00002023#32 .sw := rowS_of_mem "SW" (by simp [opcodeTable, rowsMem])

/-! ## Completion -/

section
variable {s : State} {rs1 : RegNum} (rs2 : RegNum) {imm : BitVec 12}

/-- Every address is aligned for a byte. -/
theorem sb_completes (hm : AllMapped s (baseOffset s rs1 imm) 1) :
    StoreCompletes 4 (.sb rs1 rs2 imm) s (baseOffset s rs1 imm) [(readReg s rs2).extractLsb' 0 8] := by
  rw [← bytesOfWord_one]
  exact storeCompletes_of_storeTo rfl (by decide) (Nat.mod_one _) hm

theorem sh_completes (ha : (baseOffset s rs1 imm).toNat % 2 = 0) (hm : AllMapped s (baseOffset s rs1 imm) 2) :
    StoreCompletes 4 (.sh rs1 rs2 imm) s (baseOffset s rs1 imm)
      [(readReg s rs2).extractLsb' 0 8, (readReg s rs2).extractLsb' 8 8] := by
  rw [← bytesOfWord_two]
  exact storeCompletes_of_storeTo rfl (by decide) ha hm

theorem sw_completes (ha : (baseOffset s rs1 imm).toNat % 4 = 0) (hm : AllMapped s (baseOffset s rs1 imm) 4) :
    StoreCompletes 4 (.sw rs1 rs2 imm) s (baseOffset s rs1 imm)
      [(readReg s rs2).extractLsb' 0 8, (readReg s rs2).extractLsb' 8 8,
       (readReg s rs2).extractLsb' 16 8, (readReg s rs2).extractLsb' 24 8] := by
  rw [← bytesOfWord_four]
  exact storeCompletes_of_storeTo rfl (by decide) ha hm

end

/-- Settles O19: the row of the opcode map, and SB as a `MemWrite` of one byte. -/
theorem byteStore : Obligations.ByteStore :=
  ⟨rowS_sb, fun s rs1 rs2 imm => ⟨baseOffset_eq_ofInt s rs1 imm, sb_completes rs2, storeStops_of_storeTo rfl⟩⟩

/-- Settles O20: the two rows of the opcode map, and SH and SW as a `MemWrite` of two and of four bytes. -/
theorem halfwordAndWordStores : Obligations.HalfwordAndWordStores :=
  ⟨rowS_sh, rowS_sw, fun s rs1 rs2 imm => ⟨baseOffset_eq_ofInt s rs1 imm, sh_completes rs2, sw_completes rs2,
    storeMisaligned_of_storeTo rfl, storeMisaligned_of_storeTo rfl,
    storeStops_of_storeTo rfl, storeStops_of_storeTo rfl⟩⟩

end Sys2Proof.Machine
end

section
/-! PROOFS. ADDI to SRAI (spec/45_immediate_arithmetic.md R150 to R160): the rows of the opcode map, the sign-extended
immediate as a number and bit by bit, and comparisons and shifts as arithmetic. -/

namespace Sys2Proof.Machine

/-! ## Words -/

theorem rowI_addi : RowI 0x00000013#32 .addi := rowI_of_mem "ADDI" (by simp [opcodeTable, rowsImm])

theorem rowI_slti : RowI 0x00002013#32 .slti := rowI_of_mem "SLTI" (by simp [opcodeTable, rowsImm])

theorem rowI_sltiu : RowI 0x00003013#32 .sltiu := rowI_of_mem "SLTIU" (by simp [opcodeTable, rowsImm])

theorem rowI_xori : RowI 0x00004013#32 .xori := rowI_of_mem "XORI" (by simp [opcodeTable, rowsImm])

theorem rowI_ori : RowI 0x00006013#32 .ori := rowI_of_mem "ORI" (by simp [opcodeTable, rowsImm])

theorem rowI_andi : RowI 0x00007013#32 .andi := rowI_of_mem "ANDI" (by simp [opcodeTable, rowsImm])

/-- A row of the opcode map for a shift by a constant is read both ways. -/
theorem rowShift_of_mem {mk : RegNum → RegNum → BitVec 5 → Instr} {p : Word} (name : String)
    (h : ⟨name, p, maskOpF3F7, fun w => mk (fieldRd w) (fieldRs1 w) (fieldShamt w)⟩ ∈ opcodeTable) : RowShift p mk :=
  under_row_iff_decode h

theorem rowShift_slli : RowShift 0x00001013#32 .slli := rowShift_of_mem "SLLI" (by simp [opcodeTable, rowsImm])

theorem rowShift_srli : RowShift 0x00005013#32 .srli := rowShift_of_mem "SRLI" (by simp [opcodeTable, rowsImm])

theorem rowShift_srai : RowShift 0x40005013#32 .srai := rowShift_of_mem "SRAI" (by simp [opcodeTable, rowsImm])

/-! ## The immediate (spec/30_encoding.md R79) -/

/-- Sign extension keeps the signed value. -/
theorem toInt_signed12 (imm : BitVec 12) : (signed12 imm).toInt = imm.toInt :=
  BitVec.toInt_signExtend_of_le (by decide)

/-- As an unsigned number the extended immediate is its signed value modulo 2^32. -/
theorem toNat_signed12 (imm : BitVec 12) : ((signed12 imm).toNat : Int) = imm.toInt % 2 ^ 32 := by
  have hofInt : (signed12 imm).toNat = (imm.toInt % 2 ^ 32).toNat := BitVec.toNat_ofInt imm.toInt
  rw [hofInt, Int.toNat_of_nonneg (Int.emod_nonneg _ (by decide))]

/-- Bits 31..12 are copies of bit 11. -/
theorem getLsbD_signed12 (imm : BitVec 12) {k : Nat} (hk : k < 32) :
    (signed12 imm).getLsbD k = imm.getLsbD (min k 11) := by
  rw [signed12, BitVec.getLsbD_signExtend, decide_eq_true hk, Bool.true_and]
  split
  · rw [Nat.min_eq_left (by omega)]
  · rw [Nat.min_eq_right (by omega), BitVec.msb_eq_getLsbD_last]

/-! ## Sum and comparisons -/

/-- The sum of words is that of their signed values modulo 2^32. -/
theorem add_eq_ofInt_toInt (a b : Word) : a + b = BitVec.ofInt 32 (a.toInt + b.toInt) := by
  rw [BitVec.ofInt_add, BitVec.ofInt_toInt, BitVec.ofInt_toInt]

/-- The number a comparison leaves in `rd`, by what the comparison means. -/
theorem toNat_flagWord {c : Bool} {P : Prop} [Decidable P] (h : c = true ↔ P) :
    (flagWord c).toNat = if P then 1 else 0 := by
  rw [flagWord, apply_ite BitVec.toNat]
  exact if_congr h rfl rfl

theorem lessSigned_signed12_iff {a : Word} {imm : BitVec 12} :
    lessSigned a (signed12 imm) = true ↔ a.toInt < imm.toInt := by
  rw [lessSigned_iff, toInt_signed12]

/-- R153: the comparison is unsigned, of the immediate after its sign extension. -/
theorem lessUnsigned_signed12_iff {a : Word} {imm : BitVec 12} :
    lessUnsigned a (signed12 imm) = true ↔ (a.toNat : Int) < imm.toInt % 2 ^ 32 := by
  rw [lessUnsigned_iff, ← toNat_signed12, Int.ofNat_lt]

/-- Settles O22: the three rows of the opcode map, and the sum and the two comparisons on numbers. -/
theorem addAndCompareImmediate : Obligations.AddAndCompareImmediate := by
  refine ⟨rowI_addi, rowI_slti, rowI_sltiu, fun s rd rs1 imm => ⟨(addi_completes s rd rs1 imm).imp ?addi,
    completes_of_finishRd rfl (toNat_flagWord lessSigned_signed12_iff),
    completes_of_finishRd rfl (toNat_flagWord lessUnsigned_signed12_iff)⟩⟩
  case addi => rintro _ rfl; rw [add_eq_ofInt_toInt, toInt_signed12]

/-! ## Logical operations -/

/-- Settles O23: the three rows of the opcode map, and each bit of the extended immediate as a bit of the field. -/
theorem logicalImmediates : Obligations.LogicalImmediates := by
  refine ⟨rowI_xori, rowI_ori, rowI_andi, fun s rd rs1 imm => ⟨completes_of_finishRd rfl fun k hk => ?xori,
    completes_of_finishRd rfl fun k hk => ?ori, completes_of_finishRd rfl fun k hk => ?andi⟩⟩
  case xori => rw [BitVec.getLsbD_xor, getLsbD_signed12 imm hk]
  case ori => rw [BitVec.getLsbD_or, getLsbD_signed12 imm hk]
  case andi => rw [BitVec.getLsbD_and, getLsbD_signed12 imm hk]

/-! ## Shifts -/

/-- A shift left multiplies modulo 2^32. -/
theorem toNat_shiftLeft_eq_mul (a : Word) (n : Nat) : (a <<< n).toNat = a.toNat * 2 ^ n % 2 ^ 32 := by
  rw [BitVec.toNat_shiftLeft, Nat.shiftLeft_eq]

/-- A logical shift right divides the unsigned value, rounding down. -/
theorem toNat_ushiftRight_eq_div (a : Word) (n : Nat) : (a >>> n).toNat = a.toNat / 2 ^ n := by
  rw [BitVec.toNat_ushiftRight, Nat.shiftRight_eq_div_pow]

/-- An arithmetic shift right divides the signed value, rounding down. -/
theorem toInt_sshiftRight_eq_fdiv (a : Word) (n : Nat) : (a.sshiftRight n).toInt = Int.fdiv a.toInt (2 ^ n) := by
  rw [BitVec.toInt_sshiftRight, Int.shiftRight_eq_div_pow, Int.fdiv_eq_ediv_of_nonneg _ (by positivity),
    Nat.cast_pow, Nat.cast_ofNat]

/-- Settles O24: the three rows of the opcode map, the invalid shifts by O3, and the shifts as arithmetic. -/
theorem immediateShifts : Obligations.ImmediateShifts :=
  ⟨rowShift_slli, rowShift_srli, rowShift_srai, fun w => (invalidShiftsAreIllegal w).1.mpr, fun _ _ _ _ =>
    ⟨completes_of_finishRd rfl (toNat_shiftLeft_eq_mul _ _), completes_of_finishRd rfl (toNat_ushiftRight_eq_div _ _),
      completes_of_finishRd rfl (toInt_sshiftRight_eq_fdiv _ _)⟩⟩

end Sys2Proof.Machine
end

section
/-! PROOFS. ADD to AND (spec/46_register_arithmetic.md R170 to R180) and MUL (spec/48_multiply.md R210): the rows of the
opcode map, the results as arithmetic on numbers or bit by bit, and the shift count as a remainder. -/

namespace Sys2Proof.Machine

/-! ## Words -/

/-- An R row of the opcode map is read both ways. -/
theorem rowR_of_mem {mk : RegNum → RegNum → RegNum → Instr} {p : Word} (name : String)
    (h : ⟨name, p, maskOpF3F7, fun w => mk (fieldRd w) (fieldRs1 w) (fieldRs2 w)⟩ ∈ rowsReg) : RowR p mk := by
  have hsub : rowsReg ⊆ opcodeTable := fun r hr => by
    simp only [opcodeTable, List.mem_append, hr, or_true, true_or]
  exact under_row_iff_decode (hsub h)

theorem rowR_add : RowR 0x00000033#32 .add := rowR_of_mem "ADD" (by simp [rowsReg])

theorem rowR_sub : RowR 0x40000033#32 .sub := rowR_of_mem "SUB" (by simp [rowsReg])

theorem rowR_sll : RowR 0x00001033#32 .sll := rowR_of_mem "SLL" (by simp [rowsReg])

theorem rowR_slt : RowR 0x00002033#32 .slt := rowR_of_mem "SLT" (by simp [rowsReg])

theorem rowR_sltu : RowR 0x00003033#32 .sltu := rowR_of_mem "SLTU" (by simp [rowsReg])

theorem rowR_xor : RowR 0x00004033#32 .xor := rowR_of_mem "XOR" (by simp [rowsReg])

theorem rowR_srl : RowR 0x00005033#32 .srl := rowR_of_mem "SRL" (by simp [rowsReg])

theorem rowR_sra : RowR 0x40005033#32 .sra := rowR_of_mem "SRA" (by simp [rowsReg])

theorem rowR_or : RowR 0x00006033#32 .or := rowR_of_mem "OR" (by simp [rowsReg])

theorem rowR_and : RowR 0x00007033#32 .and := rowR_of_mem "AND" (by simp [rowsReg])

theorem rowR_mul : RowR 0x02000033#32 .mul := rowR_of_mem "MUL" (by simp [rowsReg])

/-! ## Sum, difference and product -/

/-- The difference of words is that of their signed values modulo 2^32. -/
theorem sub_eq_ofInt_toInt (a b : Word) : a - b = BitVec.ofInt 32 (a.toInt - b.toInt) := by
  rw [Int.sub_eq_add_neg, BitVec.ofInt_add, BitVec.ofInt_neg, BitVec.ofInt_toInt, BitVec.ofInt_toInt,
    BitVec.sub_eq_add_neg]

/-- The product of words is that of their signed values modulo 2^32, as it is that of their unsigned values
(`BitVec.toNat_mul`). -/
theorem mul_eq_ofInt_toInt (a b : Word) : a * b = BitVec.ofInt 32 (a.toInt * b.toInt) := by
  rw [BitVec.ofInt_mul, BitVec.ofInt_toInt, BitVec.ofInt_toInt]

/-- Settles O25: the three rows of the opcode map, and the results as those of the signed values, the product also as
that of the unsigned ones. -/
theorem addSubtractMultiply : Obligations.AddSubtractMultiply :=
  ⟨rowR_add, rowR_sub, rowR_mul, fun _ _ _ _ =>
    ⟨completes_of_finishRd rfl (add_eq_ofInt_toInt _ _), completes_of_finishRd rfl (sub_eq_ofInt_toInt _ _),
      completes_of_finishRd rfl ⟨BitVec.toNat_mul _ _, mul_eq_ofInt_toInt _ _⟩⟩⟩

/-! ## Comparisons -/

/-- Settles O26: the two rows of the opcode map, and the number that each comparison leaves. -/
theorem compareRegisters : Obligations.CompareRegisters :=
  ⟨rowR_slt, rowR_sltu, fun _ _ _ _ =>
    ⟨completes_of_finishRd rfl (toNat_flagWord lessSigned_iff),
      completes_of_finishRd rfl (toNat_flagWord lessUnsigned_iff)⟩⟩

/-! ## Logical operations -/

/-- Settles O27: the three rows of the opcode map, and each bit of the word operation as the operation on bits. -/
theorem logicalRegisters : Obligations.LogicalRegisters :=
  ⟨rowR_xor, rowR_or, rowR_and, fun _ _ _ _ =>
    ⟨completes_of_finishRd rfl fun _ _ => BitVec.getLsbD_xor, completes_of_finishRd rfl fun _ _ => BitVec.getLsbD_or,
      completes_of_finishRd rfl fun _ _ => BitVec.getLsbD_and⟩⟩

/-! ## Shifts -/

/-- The low five bits of a word are its remainder by 32 (R173). -/
theorem shiftCount_eq_mod (v : Word) : shiftCount v = v.toNat % 32 := by
  exact BitVec.extractLsb'_toNat 0 5 v

/-- Settles O28: the three rows of the opcode map, and the shifts by that remainder as arithmetic. -/
theorem registerShifts : Obligations.RegisterShifts := by
  refine ⟨rowR_sll, rowR_srl, rowR_sra, fun s rd rs1 rs2 => ?_⟩
  rw [← shiftCount_eq_mod]
  exact ⟨completes_of_finishRd rfl (toNat_shiftLeft_eq_mul _ _),
    completes_of_finishRd rfl (toNat_ushiftRight_eq_div _ _),
    completes_of_finishRd rfl (toInt_sshiftRight_eq_fdiv _ _)⟩

end Sys2Proof.Machine
end

section
/-! PROOFS. CSRRW to CSRRCI (spec/47_csr.md R190 to R196): the rows of the opcode map, the new value of the cell bit by
bit, and that no other cell changes (spec/60_exceptions.md R237). -/

namespace Sys2Proof.Machine

/-! ## Words -/

/-- A CSR row of the opcode map is read both ways; `zimm` stands where `rs1` stands (spec/30_encoding.md R85). -/
theorem rowCsr_of_mem {mk : RegNum → CsrAddr → BitVec 5 → Instr} {p : Word} (name : String)
    (h : ⟨name, p, maskOpF3, fun w => mk (fieldRd w) (fieldCsr w) (fieldRs1 w)⟩ ∈ opcodeTable) : RowCsr p mk :=
  under_row_iff_decode h

theorem rowCsr_csrrw : RowCsr 0x00001073#32 .csrrw := rowCsr_of_mem "CSRRW" (by simp [opcodeTable, rowsCsr])

theorem rowCsr_csrrs : RowCsr 0x00002073#32 .csrrs := rowCsr_of_mem "CSRRS" (by simp [opcodeTable, rowsCsr])

theorem rowCsr_csrrc : RowCsr 0x00003073#32 .csrrc := rowCsr_of_mem "CSRRC" (by simp [opcodeTable, rowsCsr])

theorem rowCsr_csrrwi : RowCsr 0x00005073#32 .csrrwi :=
  rowCsr_of_mem "CSRRWI" (by simp [opcodeTable, rowsCsr, fieldZimm, fieldRs1])

theorem rowCsr_csrrsi : RowCsr 0x00006073#32 .csrrsi :=
  rowCsr_of_mem "CSRRSI" (by simp [opcodeTable, rowsCsr, fieldZimm, fieldRs1])

theorem rowCsr_csrrci : RowCsr 0x00007073#32 .csrrci :=
  rowCsr_of_mem "CSRRCI" (by simp [opcodeTable, rowsCsr, fieldZimm, fieldRs1])

/-! ## The new value of the cell -/

/-- Clearing bits: those set in `mask` go, the others stay. -/
theorem getLsbD_and_not (old mask : Word) {k : Nat} (hk : k < 32) :
    (old &&& ~~~mask).getLsbD k = (old.getLsbD k && !mask.getLsbD k) := by
  rw [BitVec.getLsbD_and, BitVec.getLsbD_not, decide_eq_true hk, Bool.true_and]

/-- The extended field has the bits of the field, and zeros above them. -/
theorem getLsbD_unsigned5 (zimm : BitVec 5) {k : Nat} (hk : k < 32) :
    (unsigned5 zimm).getLsbD k = (decide (k < 5) && zimm.getLsbD k) := by
  rw [unsigned5, BitVec.getLsbD_setWidth, decide_eq_true hk, Bool.true_and]
  by_cases h5 : k < 5
  · rw [decide_eq_true h5, Bool.true_and]
  · rw [BitVec.getLsbD_of_ge zimm k (by omega), Bool.and_false]

theorem toNat_unsigned5 (zimm : BitVec 5) : (unsigned5 zimm).toNat = zimm.toNat :=
  BitVec.toNat_setWidth_of_le (by decide)

/-! ## Results -/

section
variable (s : State) (rd : RegNum) (a : CsrAddr)

theorem exec_csrrw (rs1 : RegNum) : exec (.csrrw rd a rs1) s = csrAccess s rd a (fun _ => readReg s rs1) := rfl

theorem exec_csrrs (rs1 : RegNum) : exec (.csrrs rd a rs1) s = csrAccess s rd a (· ||| readReg s rs1) := rfl

theorem exec_csrrc (rs1 : RegNum) : exec (.csrrc rd a rs1) s = csrAccess s rd a (· &&& ~~~(readReg s rs1)) := rfl

theorem exec_csrrwi (zimm : BitVec 5) : exec (.csrrwi rd a zimm) s = csrAccess s rd a (fun _ => unsigned5 zimm) := rfl

theorem exec_csrrsi (zimm : BitVec 5) : exec (.csrrsi rd a zimm) s = csrAccess s rd a (· ||| unsigned5 zimm) := rfl

theorem exec_csrrci (zimm : BitVec 5) : exec (.csrrci rd a zimm) s = csrAccess s rd a (· &&& ~~~(unsigned5 zimm)) := rfl

end

/-- Settles O29: the three rows of the opcode map, and the operations on the cell bit by bit. -/
theorem csrRegisterForms : Obligations.CsrRegisterForms := by
  refine ⟨rowCsr_csrrw, rowCsr_csrrs, rowCsr_csrrc, fun s rd rs1 a => ?_⟩
  rw [exec_csrrw, exec_csrrs, exec_csrrc]
  refine ⟨fun hi => ⟨?csrrw, ?csrrs, ?csrrc⟩,
    fun habsent => ⟨csrAccess_of_absent habsent, csrAccess_of_absent habsent, csrAccess_of_absent habsent⟩⟩
  case csrrw => exact csrCompletes_of_csrAccess (exec_csrrw s rd a rs1) hi rfl
  case csrrs => exact csrCompletes_of_csrAccess (exec_csrrs s rd a rs1) hi fun _ _ => BitVec.getLsbD_or
  case csrrc => exact csrCompletes_of_csrAccess (exec_csrrc s rd a rs1) hi fun _ hk => getLsbD_and_not _ _ hk

/-- Settles O30: the three rows of the opcode map, and the extended field as a number and bit by bit. -/
theorem csrImmediateForms : Obligations.CsrImmediateForms := by
  refine ⟨rowCsr_csrrwi, rowCsr_csrrsi, rowCsr_csrrci, fun s rd a zimm => ?_⟩
  rw [exec_csrrwi, exec_csrrsi, exec_csrrci]
  refine ⟨fun hi => ⟨?csrrwi, ?csrrsi, ?csrrci⟩,
    fun habsent => ⟨csrAccess_of_absent habsent, csrAccess_of_absent habsent, csrAccess_of_absent habsent⟩⟩
  case csrrwi => exact csrCompletes_of_csrAccess (exec_csrrwi s rd a zimm) hi (toNat_unsigned5 zimm)
  case csrrsi =>
    refine csrCompletes_of_csrAccess (exec_csrrsi s rd a zimm) hi fun k hk => ?_
    rw [BitVec.getLsbD_or, getLsbD_unsigned5 zimm hk]
  case csrrci =>
    refine csrCompletes_of_csrAccess (exec_csrrci s rd a zimm) hi fun k hk => ?_
    rw [getLsbD_and_not _ _ hk, getLsbD_unsigned5 zimm hk]

/-! ## The other cells -/

/-- None of the effects an instruction can have is on a cell it does not name. -/
theorem Effect.readCsr_of_ne {i : Instr} {s u : State} {c : CsrAddr} (h : Effect i s u) (hc : csrOperand i ≠ some c) :
    readCsr u c = readCsr s c := by
  cases h with
  | none => rfl
  | reg rd v _ => exact readCsr_writeReg s rd v c
  | store addr n bs _ _ _ _ => exact readCsr_congr (csrs_storeBytes s (byteAddrs addr n) bs) c
  | csr rd v a w _ ha _ =>
    have hne : c ≠ a := fun e => hc (e ▸ ha)
    rw [readCsr_writeCsr, if_neg hne, readCsr_writeReg]

/-- Settles O37: no effect of an instruction is on a cell it does not name, and moving the pc is on none. -/
theorem onlyTheNamedCsrChanges : Obligations.OnlyTheNamedCsrChanges := by
  intro i s t h c hc
  obtain ⟨u, heffect, ht⟩ := exec_effect h
  rw [ht, readCsr_setPc]
  exact heffect.readCsr_of_ne hc

end Sys2Proof.Machine
end

section
/-! PROOFS. SWSP and LWSP (spec/49_stack_pointer.md R215 to R218): they have no word, store and load at SP, and differ
from SW and LW with base x2 in the pc alone. -/

namespace Sys2Proof.Machine

/-! ## No word -/

/-- R215: what has no row in the opcode map is no reading of a word. -/
theorem decode_ne_of_hasEncoding_eq_false {i : Instr} (hi : hasEncoding i = false) (w : Word) :
    decode w ≠ .instr i := by
  intro h
  cases hi.symm.trans (hasEncoding_of_decode h)

/-! ## Store and load at SP -/

theorem swsp_completes {s : State} (r : RegNum) {u : Word} (ha : (spOffset s u).toNat % 4 = 0)
    (hm : AllMapped s (spOffset s u) 4) :
    StoreCompletes Config.ilenSp (.swsp r u) s (spOffset s u)
      [(readReg s r).extractLsb' 0 8, (readReg s r).extractLsb' 8 8,
       (readReg s r).extractLsb' 16 8, (readReg s r).extractLsb' 24 8] := by
  rw [← bytesOfWord_four]
  exact storeCompletes_of_storeTo rfl (by decide) ha hm

/-- Settles O32: SWSP is a `MemWrite` of four bytes at `spOffset`, by an instruction without a row. -/
theorem swspStoresAtSp : Obligations.SwspStoresAtSp :=
  ⟨fun w _ _ => decode_ne_of_hasEncoding_eq_false rfl w, fun _ r _ => ⟨rfl, swsp_completes r,
    storeMisaligned_of_storeTo rfl, storeStops_of_storeTo rfl⟩⟩

/-- Settles O33: LWSP is a `MemRead` of four bytes at `spOffset`, by an instruction without a row. -/
theorem lwspLoadsAtSp : Obligations.LwspLoadsAtSp :=
  ⟨fun w _ _ => decode_ne_of_hasEncoding_eq_false rfl w, fun _ _ _ => ⟨rfl,
    fun b0 b1 b2 b3 ha hm hb =>
      completesBy_of_loadFrom (bs := [b0, b1, b2, b3]) rfl ha hm hb (wordOfBytes_four b0 b1 b2 b3),
    loadMisaligned_of_loadFrom rfl, loadStops_of_loadFrom rfl⟩⟩

/-! ## SW and LW in their place -/

/-- The outcome with the pc of its next state, if it has one, replaced. -/
def withPc (p : Word) : Result → Result
  | .next t => .next (t.setPc p)
  | .fault f => .fault f
  | .refused r => .refused r

theorem withPc_eq_fault_iff {p : Word} {x : Result} {f : Fault} : withPc p x = .fault f ↔ x = .fault f := by
  cases x <;> simp [withPc]

/-- The length a store moves the pc by matters to the pc alone. -/
theorem storeTo_withPc (s : State) (addr : Word) (n : Nat) (v len len' : Word) :
    storeTo s addr n v len' = withPc (s.pc + len') (storeTo s addr n v len) := by
  unfold storeTo
  rcases memWrite_cases s addr n v with ⟨-, e⟩ | ⟨-, -, e⟩ | ⟨-, -, e⟩ <;> simp [e, withPc, raise]

/-- The length a load moves the pc by matters to the pc alone. -/
theorem loadFrom_withPc (s : State) (addr : Word) (n : Nat) (ext : Word → Word) (rd : RegNum) (len len' : Word) :
    loadFrom s addr n ext rd len' = withPc (s.pc + len') (loadFrom s addr n ext rd len) := by
  unfold loadFrom
  cases memRead s addr n with
  | error f => rfl
  | ok v => simp [withPc]

/-- An immediate with bit 11 zero is extended alike by sign and by zeros. -/
theorem signed12_eq_setWidth {imm : BitVec 12} (h : imm.toNat < 2048) : signed12 imm = imm.setWidth 32 :=
  BitVec.signExtend_eq_setWidth_of_msb_false (BitVec.msb_eq_false_iff_two_mul_lt.mpr (by omega))

/-- R218: the address of SW and LW with base x2 is that of SWSP and LWSP. -/
theorem baseOffset_sp {imm : BitVec 12} (s : State) (h : imm.toNat < 2048) :
    baseOffset s 2#5 imm = spOffset s (imm.setWidth 32) := by
  rw [baseOffset, signed12_eq_setWidth h]; rfl

theorem exec_sw_eq_swsp {imm : BitVec 12} (s : State) (r : RegNum) (h : imm.toNat < 2048) :
    exec (.sw 2#5 r imm) s = withPc (s.pc + 4) (exec (.swsp r (imm.setWidth 32)) s) := by
  have hsw : exec (.sw 2#5 r imm) s = storeTo s (baseOffset s 2#5 imm) 4 (readReg s r) 4 := rfl
  rw [hsw, baseOffset_sp s h]
  exact storeTo_withPc s _ 4 _ Config.ilenSp 4

theorem exec_lw_eq_lwsp {imm : BitVec 12} (s : State) (r : RegNum) (h : imm.toNat < 2048) :
    exec (.lw r 2#5 imm) s = withPc (s.pc + 4) (exec (.lwsp r (imm.setWidth 32)) s) := by
  have hlw : exec (.lw r 2#5 imm) s = loadFrom s (baseOffset s 2#5 imm) 4 id r 4 := rfl
  rw [hlw, baseOffset_sp s h]
  exact loadFrom_withPc s _ 4 id r Config.ilenSp 4

/-- Settles O34: the outcomes are the same but for the pc of a next state. -/
theorem swAndLwReplaceSwspAndLwsp : Obligations.SwAndLwReplaceSwspAndLwsp := by
  intro s r imm himm
  rw [exec_sw_eq_swsp s r himm, exec_lw_eq_lwsp s r himm]
  exact ⟨fun t ht => by rw [ht]; rfl, fun t ht => by rw [ht]; rfl, fun _ => withPc_eq_fault_iff.symm,
    fun _ => withPc_eq_fault_iff.symm⟩

end Sys2Proof.Machine
end

section
/-! PROOFS. Faults and refusals (spec/60_exceptions.md): what stops a step before execution, in the order of R225, and
which faults the execution of an instruction can raise (R222, R223). -/

namespace Sys2Proof.Machine

variable {s : State}

/-! ## A step that fetches no word -/

theorem step_of_fetch_fault {f : Fault} (h : fetch s = .fault f) : step s = .fault f := by
  simp [step, fetchInstr, h, raise]

theorem step_of_fetch_refused {r : Refusal} (h : fetch s = .refused r) : step s = .refused r := by
  simp [step, fetchInstr, h, refuse]

theorem fetch_of_misaligned (ha : s.pc.toNat % 4 ≠ 0) : fetch s = .fault (.misalignedFetch s.pc) := by
  rcases fetch_cases s with ⟨-, e⟩ | ⟨ha', -⟩ | ⟨ha', -⟩
  · exact e
  · exact absurd ha' ha
  · exact absurd ha' ha

theorem fetch_of_unmapped (ha : s.pc.toNat % 4 = 0) (hm : ¬ AllMapped s s.pc 4) :
    fetch s = .fault (.fetchAccessFault s.pc) := by
  rcases fetch_cases s with ⟨ha', -⟩ | ⟨-, -, e⟩ | ⟨-, hm', -⟩
  · exact absurd ha ha'
  · exact e
  · exact absurd hm' hm

/-- The fetch names the lowest byte without a value, because reading the four bytes does. -/
theorem fetch_of_unwritten (ha : s.pc.toNat % 4 = 0) (hm : AllMapped s s.pc 4)
    (hunstored : ∀ k < 4, wasStored s (s.pc + BitVec.ofNat 32 k) = false) {k : Nat} (hk : k < 4)
    (hnone : memByte s (s.pc + BitVec.ofNat 32 k) = none)
    (hlowest : ∀ j < k, memByte s (s.pc + BitVec.ofNat 32 j) ≠ none) :
    fetch s = .fault (.unwrittenRead (s.pc + BitVec.ofNat 32 k)) := by
  have hread := (readBytes_error_iff s s.pc 4 _).mpr ⟨k, hk, hnone, hlowest, rfl⟩
  rcases fetch_cases s with ⟨ha', -⟩ | ⟨-, hm', -⟩ | ⟨-, -, ⟨⟨j, hj, hstored⟩, -⟩ | ⟨-, hrest⟩⟩
  · exact absurd ha ha'
  · exact absurd hm hm'
  · simp [hunstored j hj] at hstored
  · rcases hrest with ⟨k', hk', hnone', hlowest', e⟩ | ⟨b0, b1, b2, b3, hb, -⟩
    · have hread' := (readBytes_error_iff s s.pc 4 _).mpr ⟨k', hk', hnone', hlowest', rfl⟩
      rw [e, Except.error.inj (hread.symm.trans hread')]
    · cases hread.symm.trans (readBytes_of_bytesAre s hb)

/-- Settles O7: the first check of `fetch` that applies, and then the reading of the word. -/
theorem stepStopsBeforeExecution : Obligations.StepStopsBeforeExecution := by
  intro s
  refine ⟨fun ha => step_of_fetch_fault (fetch_of_misaligned ha),
    fun ha hm => step_of_fetch_fault (fetch_of_unmapped ha hm),
    fun ha hm => ⟨fun k hk hstored => step_of_wasStored ha hm hk hstored, fun hunstored =>
      ⟨fun k hk hnone hlowest => step_of_fetch_fault (fetch_of_unwritten ha hm hunstored hk hnone hlowest),
        fun b0 b1 b2 b3 hb => ?word⟩⟩⟩
  have hfetch : fetch s = .next (b3 ++ b2 ++ b1 ++ b0) :=
    wordOfBytes_four b0 b1 b2 b3 ▸ fetch_of_bytesAre rfl ha hm hunstored hb
  exact ⟨fun hill => by rw [step_of_fetch hfetch, hill], fun hunknown => by rw [step_of_fetch hfetch, hunknown]⟩

/-! ## The faults of the shared operations -/

theorem jumpTo_fault {a : Word} {f : Fault} (h : jumpTo s a = .fault f) : f = .misalignedTarget a := by
  rcases jumpTo_cases s a with ⟨-, e⟩ | ⟨-, e⟩ <;> rw [e] at h <;> cases h
  rfl

/-- Only a taken branch can fault. -/
theorem branchIf_fault {c : Bool} {off : BitVec 13} {f : Fault} (h : branchIf c s off = .fault f) :
    f = .misalignedTarget (s.pc + signed13 off) := by
  cases c with
  | false => cases h
  | true => exact jumpTo_fault h

theorem loadFrom_fault {addr : Word} {n : Nat} {ext : Word → Word} {rd : RegNum} {len : Word} {f : Fault}
    (h : loadFrom s addr n ext rd len = .fault f) :
    (addr.toNat % n ≠ 0 ∧ f = .misalignedLoad addr) ∨ f = .loadAccessFault addr ∨ ∃ a, f = .unwrittenRead a := by
  unfold loadFrom raise at h
  rcases memRead_cases s addr n with ⟨ha, e⟩ | ⟨-, -, e⟩ | ⟨-, -, ⟨k, -, -, -, e⟩ | ⟨bs, -, -, e⟩⟩ <;> rw [e] at h <;>
    cases h
  · exact .inl ⟨ha, rfl⟩
  · exact .inr (.inl rfl)
  · exact .inr (.inr ⟨_, rfl⟩)

theorem storeTo_fault {addr : Word} {n : Nat} {v len : Word} {f : Fault} (h : storeTo s addr n v len = .fault f) :
    (addr.toNat % n ≠ 0 ∧ f = .misalignedStore addr) ∨ f = .storeAccessFault addr := by
  unfold storeTo raise at h
  rcases memWrite_cases s addr n v with ⟨ha, e⟩ | ⟨-, -, e⟩ | ⟨-, -, e⟩ <;> rw [e] at h <;> cases h
  · exact .inl ⟨ha, rfl⟩
  · exact .inr rfl

theorem csrAccess_fault {rd : RegNum} {a : CsrAddr} {new : Word → Word} {f : Fault}
    (h : csrAccess s rd a new = .fault f) : f = .csrNotImplemented a := by
  unfold csrAccess raise at h
  split at h <;> cases h
  rfl

/-! ## The table of R222 -/

section
variable {i : Instr} {f : Fault}

theorem mayRaise_of_jumpTo {a : Word} (ht : transfersControl i = true) (h : jumpTo s a = .fault f) :
    mayRaise i f = true := by
  rw [jumpTo_fault h]; exact ht

theorem mayRaise_of_branchIf {c : Bool} {off : BitVec 13} (ht : transfersControl i = true)
    (h : branchIf c s off = .fault f) : mayRaise i f = true := by
  rw [branchIf_fault h]; exact ht

/-- A load of one byte is always aligned, so the table need not name it under MisalignedLoad. -/
theorem mayRaise_of_loadFrom {addr : Word} {n : Nat} {ext : Word → Word} {rd : RegNum} {len : Word}
    (hmisaligned : n ≠ 1 → ∀ a, mayRaise i (.misalignedLoad a) = true)
    (haccess : ∀ a, mayRaise i (.loadAccessFault a) = true) (hunwritten : ∀ a, mayRaise i (.unwrittenRead a) = true)
    (h : loadFrom s addr n ext rd len = .fault f) : mayRaise i f = true := by
  rcases loadFrom_fault h with ⟨ha, rfl⟩ | rfl | ⟨a, rfl⟩
  · exact hmisaligned (fun hn => ha (hn ▸ Nat.mod_one _)) addr
  · exact haccess addr
  · exact hunwritten a

/-- A store of one byte is always aligned, so the table need not name it under MisalignedStore. -/
theorem mayRaise_of_storeTo {addr : Word} {n : Nat} {v len : Word}
    (hmisaligned : n ≠ 1 → ∀ a, mayRaise i (.misalignedStore a) = true)
    (haccess : ∀ a, mayRaise i (.storeAccessFault a) = true) (h : storeTo s addr n v len = .fault f) :
    mayRaise i f = true := by
  rcases storeTo_fault h with ⟨ha, rfl⟩ | rfl
  · exact hmisaligned (fun hn => ha (hn ▸ Nat.mod_one _)) addr
  · exact haccess addr

theorem mayRaise_of_csrAccess {rd : RegNum} {a : CsrAddr} {new : Word → Word} (hc : csrOperand i = some a)
    (h : csrAccess s rd a new = .fault f) : mayRaise i f = true := by
  rw [csrAccess_fault h]; exact beq_iff_eq.mpr hc

theorem exec_fault_mayRaise (h : exec i s = .fault f) : mayRaise i f = true := by
  cases i with
  | jal _ _ | jalr _ _ _ => exact mayRaise_of_jumpTo rfl h
  | beq _ _ _ | bne _ _ _ | blt _ _ _ | bge _ _ _ | bltu _ _ _ | bgeu _ _ _ => exact mayRaise_of_branchIf rfl h
  | lb _ _ _ | lbu _ _ _ => exact mayRaise_of_loadFrom (absurd rfl) (fun _ => rfl) (fun _ => rfl) h
  | lh _ _ _ | lw _ _ _ | lhu _ _ _ | lwsp _ _ =>
    exact mayRaise_of_loadFrom (fun _ _ => rfl) (fun _ => rfl) (fun _ => rfl) h
  | sb _ _ _ => exact mayRaise_of_storeTo (absurd rfl) (fun _ => rfl) h
  | sh _ _ _ | sw _ _ _ | swsp _ _ => exact mayRaise_of_storeTo (fun _ _ => rfl) (fun _ => rfl) h
  | csrrw rd a rs1 => exact mayRaise_of_csrAccess rfl ((exec_csrrw s rd a rs1).symm.trans h)
  | csrrs rd a rs1 => exact mayRaise_of_csrAccess rfl ((exec_csrrs s rd a rs1).symm.trans h)
  | csrrc rd a rs1 => exact mayRaise_of_csrAccess rfl ((exec_csrrc s rd a rs1).symm.trans h)
  | csrrwi rd a zimm => exact mayRaise_of_csrAccess rfl ((exec_csrrwi s rd a zimm).symm.trans h)
  | csrrsi rd a zimm => exact mayRaise_of_csrAccess rfl ((exec_csrrsi s rd a zimm).symm.trans h)
  | csrrci rd a zimm => exact mayRaise_of_csrAccess rfl ((exec_csrrci s rd a zimm).symm.trans h)
  | auipc _ _ | lui _ _ | addi _ _ _ | slti _ _ _ | sltiu _ _ _ | xori _ _ _ | ori _ _ _ | andi _ _ _ | slli _ _ _
  | srli _ _ _ | srai _ _ _ | add _ _ _ | sub _ _ _ | sll _ _ _ | slt _ _ _ | sltu _ _ _ | xor _ _ _ | srl _ _ _
  | sra _ _ _ | or _ _ _ | and _ _ _ | mul _ _ _ => cases h

end

/-! ## Refusals (R223) -/

theorem jumpTo_ne_refused (s : State) (a : Word) (r : Refusal) : jumpTo s a ≠ .refused r := by
  rcases jumpTo_cases s a with ⟨-, e⟩ | ⟨-, e⟩ <;> simp [e]

theorem branchIf_ne_refused (c : Bool) (s : State) (off : BitVec 13) (r : Refusal) : branchIf c s off ≠ .refused r := by
  cases c with
  | false => nofun
  | true => exact jumpTo_ne_refused s _ r

theorem loadFrom_ne_refused (s : State) (addr : Word) (n : Nat) (ext : Word → Word) (rd : RegNum) (len : Word)
    (r : Refusal) : loadFrom s addr n ext rd len ≠ .refused r := by
  unfold loadFrom
  cases memRead s addr n <;> nofun

theorem storeTo_ne_refused (s : State) (addr : Word) (n : Nat) (v len : Word) (r : Refusal) :
    storeTo s addr n v len ≠ .refused r := by
  unfold storeTo
  cases memWrite s addr n v <;> nofun

theorem csrAccess_ne_refused (s : State) (rd : RegNum) (a : CsrAddr) (new : Word → Word) (r : Refusal) :
    csrAccess s rd a new ≠ .refused r := by
  unfold csrAccess
  split <;> nofun

/-- None of the six operations refuses. -/
theorem exec_ne_refused (i : Instr) (s : State) (r : Refusal) : exec i s ≠ .refused r := by
  have hop := exec_operation i
  generalize exec i = f at hop ⊢
  cases hop with
  | compute rd v => nofun
  | link rd target => exact jumpTo_ne_refused _ _ r
  | branch cond off => exact branchIf_ne_refused _ s off r
  | load addr n ext rd len => exact loadFrom_ne_refused s _ n ext rd len r
  | store addr n v len => exact storeTo_ne_refused s _ n _ len r
  | csr rd a new => exact csrAccess_ne_refused s rd a _ r

theorem fetch_refused {r : Refusal} (h : fetch s = .refused r) : r = .selfModifyingCode s.pc := by
  rcases fetch_cases s with ⟨-, e⟩ | ⟨-, -, e⟩ | ⟨-, -, ⟨-, e⟩ | ⟨-, ⟨k, -, -, -, e⟩ | ⟨b0, b1, b2, b3, -, e⟩⟩⟩ <;>
    rw [e] at h <;> cases h
  rfl

theorem step_refused {r : Refusal} (h : step s = .refused r) :
    r = .selfModifyingCode s.pc ∨
      ∃ ir, fetch s = .next ir ∧ decode ir = .unknownEncoding ∧ r = .unknownEncoding ir := by
  cases hfetch : fetch s with
  | fault f => cases (step_of_fetch_fault hfetch).symm.trans h
  | refused r' =>
    cases (step_of_fetch_refused hfetch).symm.trans h
    exact .inl (fetch_refused hfetch)
  | next ir =>
    rw [step_of_fetch hfetch] at h
    cases hdecode : decode ir with
    | instr i => rw [hdecode] at h; exact absurd h (exec_ne_refused i s r)
    | illegalInstruction => rw [hdecode] at h; cases h
    | unknownEncoding => rw [hdecode] at h; cases h; exact .inr ⟨ir, rfl, hdecode, rfl⟩

/-- Settles O40: by the operation each instruction ends in, and by the checks before execution. -/
theorem onlyTheTableFaults : Obligations.OnlyTheTableFaults :=
  ⟨fun _ _ _ h => exec_fault_mayRaise h, exec_ne_refused, fun _ _ h => step_refused h⟩

end Sys2Proof.Machine
end

section
/-! PROOFS. The ends of a run (spec/70_reset_and_hazards.md): the launch state (R253) and the self-jump (R258). -/

namespace Sys2Proof.Machine

variable {s : State}

/-! ## The launch state -/

/-- Settles O43: each access looks at one field, and the launch replaces the slot of x[0] alone. -/
theorem launchStateHoldsWhatItIsGiven : Obligations.LaunchStateHoldsWhatItIsGiven := by
  intro p resetPc regs csrs image
  refine ⟨rfl, readReg_zero _, fun r hr => ?_, fun a => rfl, fun a => memByte_eq _ a, fun a => rfl⟩
  have hslot : 0 ≠ r.toNat := fun e => hr (BitVec.eq_of_toNat_eq e.symm)
  rw [readReg_of_ne _ hr]
  exact Vector.getElem_set_ne (by decide) r.isLt hslot

/-! ## The self-jump -/

theorem atSelfJump_iff : atSelfJump s = true ↔ fetch s = .next 0x0000006F#32 := by
  unfold atSelfJump
  cases fetch s <;> simp

theorem decode_selfJump : decode 0x0000006F#32 = .instr (.jal 0 0) :=
  (rowJ_jal 0x0000006F#32).mp rfl

/-- R110: a jump by 0 that drops its link. -/
theorem exec_selfJump (ha : s.pc.toNat % 4 = 0) : exec (.jal 0 0) s = .next s := by
  have htarget : s.pc + signed21 0 = s.pc := BitVec.add_zero s.pc
  have hjump : exec (.jal 0 0) s = jumpTo s s.pc := congrArg (jumpTo s) htarget
  rw [hjump]
  rcases jumpTo_cases s s.pc with ⟨-, e⟩ | ⟨ha', -⟩
  · exact e
  · exact absurd ha ha'

theorem step_of_atSelfJump (h : atSelfJump s = true) : step s = .next s := by
  have hfetch := atSelfJump_iff.mp h
  obtain ⟨ha, -⟩ := fetch_next hfetch
  rw [step_of_decode hfetch decode_selfJump, exec_selfJump ha]

/-- A state that one step leaves as it is, every run leaves as it is. -/
theorem run_of_step_self {M : Host.Core} {s : M.State} (h : M.step s = .next s) (n : Nat) : M.run n s = .next s := by
  induction n with
  | zero => rfl
  | succ n ih => rw [Host.Core.run, h]; exact ih

/-- A run is finished where END_OF_RUN holds at its start. -/
theorem runUntil_of_end {endOfRun : State → Bool} (h : endOfRun s = true) (n : Nat) :
    runUntil endOfRun n s = .finished s := by
  rw [runUntil.eq_def]
  exact if_pos h

/-- Settles O48: the self-jump steps to the state it is in. -/
theorem selfJumpChangesNothing : Obligations.SelfJumpChangesNothing := fun _ h =>
  ⟨step_of_atSelfJump h, run_of_step_self (M := core) (step_of_atSelfJump h), runUntil_of_end h⟩

end Sys2Proof.Machine
end

section
/-! PROOFS. The field-extraction table of spec/95_test_vectors.md: each word is under the pattern of its row, and the
slices of that row's format are the operands the table gives. -/

namespace Sys2Proof.Machine

/-- Settles O5: by the rows of the opcode map (R87), the invalid shifts (R91) and the low two bits (R92). -/
theorem workedWordsDecode : Obligations.WorkedWordsDecode := by
  refine ⟨?mul, ?lw, ?sw, ?bne, ?lui, ?jal, ?csrrci, ?srai, ?illegal, ?unknown⟩
  case mul => exact (rowR_mul _).mp rfl
  case lw => exact (rowI_lw _).mp rfl
  case sw => exact (rowS_sw _).mp rfl
  case bne => exact (rowB_bne _).mp rfl
  case lui => exact (rowU_lui _).mp rfl
  case jal => exact (rowJ_jal _).mp rfl
  case csrrci => exact (rowCsr_csrrci _).mp rfl
  case srai => exact (rowShift_srai _).mp rfl
  case illegal => exact (invalidShiftsAreIllegal _).1.mpr (.inr (.inl rfl))
  case unknown => exact decode_of_unlisted (unlisted_of_lowBits _ _ (by decide))

end Sys2Proof.Machine
end
